-- ==== Sys2Proof/Word.lean ====
section
/-! DEFINITION. The widths of the data path (spec/00_scope.md R6): line bytes, 16-bit sums, 32-bit words. -/

namespace Sys2Proof

/-- A line byte, `u8` (R6, R11). -/
abbrev Byte := BitVec 8

/-- A checksum, `u16` (R6, R11); also a read-port address (R6). -/
abbrev Half := BitVec 16

/-- A command word or a register of the read port, 32 bits (R6). -/
abbrev Word := BitVec 32

end Sys2Proof
end

