-- ==== Sys2Proof/Syntax.lean ====
section
/-! DEFINITION. The ten commands and five events of spec/opcode_table.json, one constructor a row. -/

namespace Sys2Proof

/-- One event of the block: a legal command word (spec/30_encoding.md R82) or one of the five events
that are not command words (R87). A command word that is illegal (R85) is no `Instr`: the decoder
rejects it by name and the step records its error. -/
inductive Instr where
  /-- NOP (R200). -/
  | nop
  /-- TX_START: open a frame (R133). -/
  | txStart
  /-- TX_DATA b: send one body byte (R134). -/
  | txData (b : Byte)
  /-- TX_END: append the checksum field and close the frame (R135). -/
  | txEnd
  /-- RX_START: begin a receive (R165). -/
  | rxStart
  /-- RX_ABORT: cancel a receive (R166). -/
  | rxAbort
  /-- CK_CLEAR: start a new checksum (R103). -/
  | ckClear
  /-- CK_ADD b: add one byte to the checksum (R104). -/
  | ckAdd (b : Byte)
  /-- CK_VERIFY f0, f1: check a received field, `f0` the first byte received (R106). -/
  | ckVerify (f0 f1 : Byte)
  /-- ERR_CLEAR: clear the command error (R201). -/
  | errClear
  /-- LINE_RX b: the line receiver offers a byte (R170). -/
  | lineRx (b : Byte)
  /-- LINE_TX: the line transmitter takes a byte (R140). -/
  | lineTx
  /-- READ addr: the host read port reads one word (R206). -/
  | read (addr : Half)
  /-- RX_TIMEOUT: the receive timer reports a stall (R184). -/
  | rxTimeout
  /-- RESET: the reset input (R250). -/
  | reset
  deriving DecidableEq, Repr

end Sys2Proof
end

