-- ==== Sys2Proof/Config.lean ====
section
/-! DEFINITION. What an implementation fixes (the three parameters of spec/00_scope.md R7) and the free values. -/

namespace Sys2Proof.Config

/-- The three parameters (R7). The model takes them as an argument: every state carries its own
(`State.params`), no event changes them (R37), and no statement fixes them. -/
structure Params where
  /-- RX_CAP, in de-stuffed bytes. `none` is the idealised unbounded buffer, RX_CAP = infinity (R7, R58). -/
  rxCap : Option Nat
  /-- TXQ_DEPTH, in line bytes. -/
  txqDepth : Nat
  /-- MIN_LEN, in de-stuffed bytes. -/
  minLen : Nat
  deriving DecidableEq, Repr

/-- The values R7 suggests: RX_CAP = 4096, TXQ_DEPTH = 8, MIN_LEN = 7. Only `State.reset` uses them
(DESIGN CHOICE, notes/assumptions/1.md). -/
def Params.suggested : Params := { rxCap := some 4096, txqDepth := 8, minLen := 7 }

/-- The unspecified byte of an RX_DATA lane at an index from `rx_len` up (R27, R59; spec/93 U2): a free
value for each draw. No body, so no proof can see one (notes/assumptions/4.md). -/
opaque freeByte : Nat → Byte

/-- The contents of a cell of `rx_buf` that no line byte has been stored in: unspecified (R27, R38; U2).
A free value for each index (notes/assumptions/5.md). -/
opaque unwrittenByte : Nat → Byte

/-- What RX_LEN shows of a length that its 16 bits do not hold, which only RX_CAP = infinity allows: R53
states no value there. A free value for each length (notes/assumptions/6.md). -/
opaque overlongLen : Nat → Half

end Sys2Proof.Config
end

