-- ==== Sys2Proof/WellFormed.lean ====
section
/-! DEFINITION. Which parameters are legal (spec/00_scope.md R7), and which instructions are well formed. -/

namespace Sys2Proof

/-- 2 <= RX_CAP <= 61440, or the idealised infinity (R7). -/
def Config.Params.rxCapLegal (p : Config.Params) : Bool :=
  match p.rxCap with
  | none => true
  | some n => decide (2 ≤ n) && decide (n ≤ 61440)

/-- 5 <= TXQ_DEPTH <= 15 (R7). -/
def Config.Params.txqDepthLegal (p : Config.Params) : Bool :=
  decide (5 ≤ p.txqDepth) && decide (p.txqDepth ≤ 15)

/-- 2 <= MIN_LEN <= 255 (R7). -/
def Config.Params.minLenLegal (p : Config.Params) : Bool :=
  decide (2 ≤ p.minLen) && decide (p.minLen ≤ 255)

/-- The parameters a block can be built with (R7). -/
def Config.Params.wf (p : Config.Params) : Bool :=
  p.rxCapLegal && p.txqDepthLegal && p.minLenLegal

/-- Every instruction is well formed: each operand's type is exactly the operand's width (R81, R87:
a byte, two bytes, a 16-bit address), no value of it is reserved, and a set reserved bit is a fault of
the command WORD, which the decoder rejects, not of an instruction. -/
def Instr.wf (i : Instr) : Bool :=
  match i with
  | .nop | .txStart | .txEnd | .rxStart | .rxAbort | .ckClear | .errClear => true
  | .txData _ | .ckAdd _ | .ckVerify _ _ => true
  | .lineRx _ | .lineTx | .read _ | .rxTimeout | .reset => true

end Sys2Proof
end

