-- ==== Sys2Proof/Decode.lean ====
section
/-! DEFINITION. From what an agent presents at a port to an instruction, and back (spec/30_encoding.md parts B and C). -/

namespace Sys2Proof

/-- What an agent presents at a port (R87, formats `cmd32`, `line8`, `read16` and `signal`). The port
is part of the event: the bits alone do not say which port carries them. -/
inductive Event where
  /-- A 32-bit word at the host command port (R80). -/
  | command (w : Word)
  /-- A byte at the line receive input (R170). -/
  | lineByte (b : Byte)
  /-- The line transmit output asks for its next byte (R140); the byte is the block's output. -/
  | lineTake
  /-- A 16-bit address at the host read port (R206). -/
  | readAddr (addr : Half)
  /-- The one-bit pulse at the timeout input (R184). -/
  | timeoutPulse
  /-- The one-bit pulse at the reset input (R250). -/
  | resetPulse
  deriving DecidableEq, Repr

/-- Why a command word is illegal (R85). -/
inductive DecodeError where
  /-- The OP field is not one of the ten assigned values (R202). -/
  | unknownOp
  /-- The OP is assigned and a reserved bit is set (R203). -/
  | rsvdBits
  deriving DecidableEq, Repr

/-- The ten assigned operations (R82). -/
inductive Op where
  | nop | txStart | txData | txEnd | rxStart | rxAbort | ckClear | ckAdd | ckVerify | errClear
  deriving DecidableEq, Repr

/-- OP, bits [31:24] (R81). -/
def opField (w : Word) : Byte := w.extractLsb' 24 8

/-- The byte operand of TX_DATA and CK_ADD, and `f0` of CK_VERIFY: IMM[7:0] (R81). -/
def immLow (w : Word) : Byte := w.extractLsb' 0 8

/-- `f1` of CK_VERIFY: IMM[15:8] (R81). -/
def immHigh (w : Word) : Byte := w.extractLsb' 8 8

/-- The OP column of R82. Every value not listed is unassigned (R85). -/
def Op.ofByte (b : Byte) : Option Op :=
  if b = 0x00#8 then some .nop
  else if b = 0x01#8 then some .txStart
  else if b = 0x02#8 then some .txData
  else if b = 0x03#8 then some .txEnd
  else if b = 0x10#8 then some .rxStart
  else if b = 0x11#8 then some .rxAbort
  else if b = 0x20#8 then some .ckClear
  else if b = 0x21#8 then some .ckAdd
  else if b = 0x22#8 then some .ckVerify
  else if b = 0x30#8 then some .errClear
  else none

/-- The reserved-bit mask of an assigned OP (R83). -/
def Op.reserved : Op → Word
  | .txData | .ckAdd => 0x00FFFF00#32
  | .ckVerify => 0x00FF0000#32
  | .nop | .txStart | .txEnd | .rxStart | .rxAbort | .ckClear | .errClear => 0x00FFFFFF#32

/-- The instruction of an assigned OP whose reserved bits are clear (R82). -/
def Op.instr (op : Op) (w : Word) : Instr :=
  match op with
  | .nop => .nop
  | .txStart => .txStart
  | .txData => .txData (immLow w)
  | .txEnd => .txEnd
  | .rxStart => .rxStart
  | .rxAbort => .rxAbort
  | .ckClear => .ckClear
  | .ckAdd => .ckAdd (immLow w)
  | .ckVerify => .ckVerify (immLow w) (immHigh w)
  | .errClear => .errClear

/-- Decoding a command word, in the order of R84: the OP first, then the reserved bits. -/
def decodeCommand (w : Word) : Except DecodeError Instr :=
  match Op.ofByte (opField w) with
  | none => .error .unknownOp
  | some op => if w &&& op.reserved = 0#32 then .ok (op.instr w) else .error .rsvdBits

/-- Decoding what an agent presents: total, and only a command word can be rejected (R84, R87). -/
def decode (e : Event) : Except DecodeError Instr :=
  match e with
  | .command w => decodeCommand w
  | .lineByte b => .ok (.lineRx b)
  | .lineTake => .ok .lineTx
  | .readAddr a => .ok (.read a)
  | .timeoutPulse => .ok .rxTimeout
  | .resetPulse => .ok .reset

/-! ### The encoder -/

/-- A row of the opcode map: a word is the row's instruction when `word &&& mask = base` (R82). -/
structure Row where
  base : Word
  mask : Word
  deriving DecidableEq, Repr

/-- The "word (match)" and "mask" columns of R82. -/
def Op.row : Op → Row
  | .nop => ⟨0x00000000#32, 0xFFFFFFFF#32⟩
  | .txStart => ⟨0x01000000#32, 0xFFFFFFFF#32⟩
  | .txData => ⟨0x02000000#32, 0xFFFFFF00#32⟩
  | .txEnd => ⟨0x03000000#32, 0xFFFFFFFF#32⟩
  | .rxStart => ⟨0x10000000#32, 0xFFFFFFFF#32⟩
  | .rxAbort => ⟨0x11000000#32, 0xFFFFFFFF#32⟩
  | .ckClear => ⟨0x20000000#32, 0xFFFFFFFF#32⟩
  | .ckAdd => ⟨0x21000000#32, 0xFFFFFF00#32⟩
  | .ckVerify => ⟨0x22000000#32, 0xFFFF0000#32⟩
  | .errClear => ⟨0x30000000#32, 0xFFFFFFFF#32⟩

/-- A command word with the operand bytes `lo` in IMM[7:0] and `hi` in IMM[15:8] (R81, R88). -/
def commandWord (op : Op) (lo hi : Byte) : Word :=
  op.row.base ||| (hi.setWidth 32 <<< 8) ||| lo.setWidth 32

/-- What is presented at which port for an instruction (R82, R87). -/
def encode (i : Instr) : Event :=
  match i with
  | .nop => .command (commandWord .nop 0 0)
  | .txStart => .command (commandWord .txStart 0 0)
  | .txData b => .command (commandWord .txData b 0)
  | .txEnd => .command (commandWord .txEnd 0 0)
  | .rxStart => .command (commandWord .rxStart 0 0)
  | .rxAbort => .command (commandWord .rxAbort 0 0)
  | .ckClear => .command (commandWord .ckClear 0 0)
  | .ckAdd b => .command (commandWord .ckAdd b 0)
  | .ckVerify f0 f1 => .command (commandWord .ckVerify f0 f1)
  | .errClear => .command (commandWord .errClear 0 0)
  | .lineRx b => .lineByte b
  | .lineTx => .lineTake
  | .read a => .readAddr a
  | .rxTimeout => .timeoutPulse
  | .reset => .resetPulse

/-! ### Table words -/

/-- The event that `nbits` bits of the opcode table stand for, where the width alone names an input port
that carries that many bits: 32 bits are a command word, 16 a read address, 8 a byte at the line receive
input (R87). The bits of LINE_TX, RX_TIMEOUT and RESET name no port of their own (DESIGN CHOICE,
notes/assumptions/11.md). -/
def tableEvent (nbits w : Nat) : Option Event :=
  if nbits = 32 then some (.command (BitVec.ofNat 32 w))
  else if nbits = 16 then some (.readAddr (BitVec.ofNat 16 w))
  else if nbits = 8 then some (.lineByte (BitVec.ofNat 8 w))
  else none

/-- The instruction this decoder reads from the bits of a row of the opcode table; none where it rejects. -/
def decodeTableWord (nbits w : Nat) : Option Instr :=
  match tableEvent nbits w with
  | none => none
  | some e =>
    match decode e with
    | .ok i => some i
    | .error _ => none

end Sys2Proof
end

