-- ==== Sys2Proof/Machine/Operands.lean ====
section
/-! DEFINITION. How two bytes make a 16-bit number and back, and how a byte widens (spec/00_scope.md R11, R14). -/

namespace Sys2Proof.Machine

/-- `zext_16` (R11). -/
def zext16 (b : Byte) : Half := b.setWidth 16

/-- The LE interpretation of a received field `[f0, f1]`: `f0 + 256*f1` (R14). -/
def le16 (f0 f1 : Byte) : Half := BitVec.ofNat 16 (f0.toNat + 256 * f1.toNat)

/-- The BE interpretation of a received field `[f0, f1]`: `256*f0 + f1` (R14). -/
def be16 (f0 f1 : Byte) : Half := BitVec.ofNat 16 (256 * f0.toNat + f1.toNat)

/-- `v[7:0]`, the byte that goes first in LE order (R14). -/
def lowByte (v : Half) : Byte := v.extractLsb' 0 8

/-- `v[15:8]`, the byte that goes second in LE order (R14). -/
def highByte (v : Half) : Byte := v.extractLsb' 8 8

end Sys2Proof.Machine
end

