-- ==== Sys2Proof/Machine/State.lean ====
section
/-! DEFINITION. The complete state of one block (spec/10_state.md R21), the agents around it (R9), and the reset state (R38). -/

namespace Sys2Proof.Machine

/-- Why the machine stops with a fault: never. "No event makes the block trap, fault, halt or refuse
further events" (spec/60_exceptions.md R220), so there is no constructor. -/
inductive Fault where
  deriving DecidableEq, Repr

/-- Why an instruction has no meaning. -/
inductive Refusal where
  /-- Raised by `exec` for an instruction of the opcode table that has no meaning yet, by its mnemonic.
  Safe: the machine stops where the block goes on. No arm raises it now. -/
  | notModelled (mnemonic : String)
  deriving DecidableEq, Repr

/-! ### The block's own state: every element of R21 -/

/-- `tx_state` (R22). -/
inductive TxState where
  | idle | body
  deriving DecidableEq, Repr

/-- `rx_state` (R25). -/
inductive RxState where
  | stopped | idle | inPacket | escaped
  deriving DecidableEq, Repr

/-- `rx_result` (R26). -/
inductive RxResult where
  | none | frame | invalidEscape | timeout | overflow | aborted
  deriving DecidableEq, Repr

/-- `cmd_err` (R33). -/
inductive CmdErr where
  | none | unknownOp | rsvdBits | sequence
  deriving DecidableEq, Repr

/-- The cells of `rx_buf` that a line byte has been stored in, keyed by index, indices strictly rising
(`Memory.wf`). An index that is not listed has never been written: it holds no value, and reading it
gives a free one (`Config.unwrittenByte`; R27, R38). -/
abbrev Memory := List Host.Cell

/-- The transmit unit (R22 to R24). -/
structure TxUnit where
  /-- `tx_state` -/
  state : TxState
  /-- `tx_sum` -/
  sum : Half
  /-- `txq`, head first -/
  queue : List Byte
  deriving DecidableEq, Repr

/-- The validator's numbers and flags for the last completed frame (R29, R30). -/
structure Validation where
  /-- `rx_sum` -/
  sum : Half
  /-- `rx_field` -/
  field : Half
  /-- `rx_match_le` -/
  matchLe : Bool
  /-- `rx_match_be` -/
  matchBe : Bool
  /-- `rx_valid` -/
  valid : Bool
  /-- `rx_trunc` -/
  trunc : Bool
  deriving DecidableEq, Repr

/-- All six at 0: no frame has completed since the last RX_START or reset (R29, R30). -/
def Validation.clear : Validation :=
  { sum := 0, field := 0, matchLe := false, matchBe := false, valid := false, trunc := false }

/-- The receive unit (R25 to R30). -/
structure RxUnit where
  /-- `rx_state` -/
  state : RxState
  /-- `rx_result` -/
  result : RxResult
  /-- `rx_buf` -/
  buf : Memory
  /-- `rx_len`, a count (notes/assumptions/6.md) -/
  len : Nat
  /-- `rx_sum`, `rx_field`, `rx_match_le`, `rx_match_be`, `rx_valid`, `rx_trunc` -/
  check : Validation
  deriving DecidableEq, Repr

/-- The standalone checksum unit (R31, R32). -/
structure CkUnit where
  /-- `ck_acc` -/
  acc : Half
  /-- `ck_match_le` -/
  matchLe : Bool
  /-- `ck_match_be` -/
  matchBe : Bool
  deriving DecidableEq, Repr

/-! ### The agents around the block (R9) -/

/-- Who acts: one of the six agents of R9. The address of a read comes with the access. -/
inductive Agent where
  | reset
  | command
  | lineTx
  | lineRx
  | rxTimeout
  | read (addr : Half)
  deriving DecidableEq, Repr

/-- The agents that present an event in one and the same cycle (spec/60_exceptions.md R225). -/
structure Cycle where
  reset : Bool
  command : Bool
  lineTx : Bool
  lineRx : Bool
  rxTimeout : Bool
  deriving DecidableEq, Repr

/-- Nobody presents an event. -/
def Cycle.quiet : Cycle :=
  { reset := false, command := false, lineTx := false, lineRx := false, rxTimeout := false }

/-- An entry of the total order of events (spec/20_memory.md R63): one agent's turn, or a cycle in which
several agents present an event at once. -/
inductive Turn where
  | agent (a : Agent)
  | cycle (c : Cycle)
  deriving DecidableEq, Repr

/-- What surrounds the block: what the agents hold out to it, in which order they act, and what has come
out of it. None of this is state of the block (R21, R36); it is the model's own
(notes/assumptions/2.md and 8.md). -/
structure Env where
  /-- the words waiting at the host command port, in issue order (R80) -/
  commands : List Word
  /-- the bytes the line receiver has still to offer, in line order (R170, R181) -/
  lineIn : List Byte
  /-- the total order of the events to come (R63) -/
  schedule : List Turn
  /-- the bytes the line transmitter has taken, oldest first (R140) -/
  lineOut : List Byte
  /-- the words the read port has returned, oldest first (R206) -/
  readOut : List Word
  /-- how many free bytes have been drawn so far (R59; notes/assumptions/4.md) -/
  draws : Nat
  deriving DecidableEq, Repr

end Sys2Proof.Machine

namespace Sys2Proof.Machine

/-- One block and what surrounds it. `tx`, `rx`, `ck` and `cmdErr` are together exactly the table of R21. -/
structure State where
  /-- RX_CAP, TXQ_DEPTH and MIN_LEN: fixed, never written (R37; notes/assumptions/1.md) -/
  params : Config.Params
  tx : TxUnit
  rx : RxUnit
  ck : CkUnit
  /-- `cmd_err` (R33) -/
  cmdErr : CmdErr
  env : Env
  deriving DecidableEq, Repr

/-- Reset values of R38. -/
def TxUnit.reset : TxUnit := { state := .idle, sum := 0, queue := [] }

/-- Reset values of R38; reset does not write `rx_buf`, which keeps the cells it has. -/
def RxUnit.reset (buf : Memory) : RxUnit :=
  { state := .stopped, result := .none, buf := buf, len := 0, check := Validation.clear }

/-- Reset values of R38. -/
def CkUnit.reset : CkUnit := { acc := 0, matchLe := false, matchBe := false }

/-- Nothing offered, nothing scheduled, nothing come out yet. -/
def Env.empty : Env :=
  { commands := [], lineIn := [], schedule := [], lineOut := [], readOut := [], draws := 0 }

/-- A block with the parameters `p` right after reset (R38, R250), with no cell of `rx_buf` written. -/
def State.resetWith (p : Config.Params) : State :=
  { params := p
    tx := TxUnit.reset
    rx := RxUnit.reset []
    ck := CkUnit.reset
    cmdErr := .none
    env := Env.empty }

/-- The machine right after reset (R38), with the parameters R7 suggests (notes/assumptions/1.md). -/
def State.reset : State := State.resetWith Config.Params.suggested

/-! ### Updates, one unit at a time -/

def State.withTx (s : State) (u : TxUnit) : State := { s with tx := u }
def State.withRx (s : State) (u : RxUnit) : State := { s with rx := u }
def State.withCk (s : State) (u : CkUnit) : State := { s with ck := u }
def State.withCmdErr (s : State) (e : CmdErr) : State := { s with cmdErr := e }
def State.withEnv (s : State) (v : Env) : State := { s with env := v }

end Sys2Proof.Machine
end

