-- ==== Sys2Proof/Machine/Wire.lean ====
section
/-! DEFINITION. The wire format: the checksum function, stuffing, un-stuffing, the frame (spec/30_encoding.md part A, R100, R130, R160). -/

namespace Sys2Proof.Machine

/-- The start delimiter (R16, R77). -/
def startDelimiter : Byte := 0xA5#8

/-- The escape byte (R16, R77). -/
def escapeByte : Byte := 0xAA#8

/-- The end delimiter (R16, R77). -/
def endDelimiter : Byte := 0xAE#8

/-- A special byte: one of the two delimiters or the escape byte (R16). -/
def isSpecial (b : Byte) : Bool :=
  b == startDelimiter || b == escapeByte || b == endDelimiter

/-- `checksum(xs)`: the sum of the byte values modulo 65536 (R100). -/
def checksum (xs : List Byte) : Half := BitVec.ofNat 16 (xs.map BitVec.toNat).sum

/-- The line bytes of one byte of the stuffed region (R71, R130). -/
def stuff1 (b : Byte) : List Byte :=
  if b = startDelimiter then [escapeByte, 0x05#8]
  else if b = escapeByte then [escapeByte, 0x0A#8]
  else if b = endDelimiter then [escapeByte, 0x0E#8]
  else [b]

/-- `stuff(xs)` (R130). -/
def stuff (xs : List Byte) : List Byte := xs.flatMap stuff1

/-- The byte an escape code stands for; none for every other byte (R71, R160). -/
def esc (c : Byte) : Option Byte :=
  if c = 0x05#8 then some startDelimiter
  else if c = 0x0A#8 then some escapeByte
  else if c = 0x0E#8 then some endDelimiter
  else none

/-- `unstuff(ys)`: `some` for `ok`, `none` for `err InvalidEscape` (R160). A lone trailing escape byte is an
error; 0xA5 and 0xAE are ordinary bytes to this pure function. -/
def unstuff (ys : List Byte) : Option (List Byte) :=
  match ys with
  | [] => some []
  | [b] => if b = escapeByte then none else some [b]
  | b :: c :: rest =>
    if b = escapeByte then
      match esc c with
      | none => none
      | some v => (unstuff rest).map (v :: ·)
    else (unstuff (c :: rest)).map (b :: ·)

/-- The checksum field a generator appends: the checksum of the body, low byte first (R74, R102). -/
def checksumField (body : List Byte) : List Byte :=
  [lowByte (checksum body), highByte (checksum body)]

/-- `frame(body)`: the line bytes of a serial frame (R70). -/
def frame (body : List Byte) : List Byte :=
  startDelimiter :: (stuff (body ++ checksumField body) ++ [endDelimiter])

end Sys2Proof.Machine
end

