-- ==== Sys2Proof/Machine/Flags.lean ====
section
/-! DEFINITION. Every flag computation: the dual-order match, the frame validator, the interrupt output (spec/40_checksum.md R107, R110; spec/10_state.md R34). -/

namespace Sys2Proof.Machine

/-- `le` of `match16`: the field read little-endian equals the sum (R107). -/
def matchesLe (sum : Half) (f0 f1 : Byte) : Bool := sum == le16 f0 f1

/-- `be` of `match16`: the field read big-endian equals the sum (R107). -/
def matchesBe (sum : Half) (f0 f1 : Byte) : Bool := sum == be16 f0 f1

/-- The validator on a de-stuffed frame whose body and two field bytes are known: the case `n >= 2` of R110. -/
def validateSplit (minLen n : Nat) (body : List Byte) (f0 f1 : Byte) : Validation :=
  let sum := checksum body
  let le := matchesLe sum f0 f1
  let be := matchesBe sum f0 f1
  let trunc := decide (n < minLen)
  { sum := sum, field := le16 f0 f1, matchLe := le, matchBe := be
    valid := (le || be) && !trunc, trunc := trunc }

/-- The validator on a frame of fewer than two bytes: no field, so no match (R110). -/
def validateShort (minLen n : Nat) : Validation :=
  { sum := 0, field := 0, matchLe := false, matchBe := false, valid := false
    trunc := decide (n < minLen) }

/-- `validate(buf, n)` with `n = len(buf)` (R110). The last two bytes are the checksum field. -/
def validate (minLen : Nat) (buf : List Byte) : Validation :=
  match buf.drop (buf.length - 2) with
  | [f0, f1] => validateSplit minLen buf.length (buf.take (buf.length - 2)) f0 f1
  | _ => validateShort minLen buf.length

/-- The output `rx_irq`: the level `rx_result != NONE` (R34, R224). -/
def rxIrq (rx : RxUnit) : Bool := decide (rx.result ≠ .none)

end Sys2Proof.Machine
end

