-- ==== Sys2Proof/Machine/Ops.lean ====
section
/-! DEFINITION. The operations the meanings share: `rx_buf`, `cmderr`, `emit`, `finish`, `append`, `complete`, and when an event is enabled (spec/00_scope.md R10, R13). -/

namespace Sys2Proof.Machine

/-! ### `rx_buf` -/

/-- The cell at an index, none where no byte has been stored. -/
def Memory.read? (m : Memory) (i : Nat) : Option Byte :=
  match m with
  | [] => none
  | (a, v) :: rest => if i = a then some v else Memory.read? rest i

/-- Store a byte at an index, keeping the indices strictly rising. -/
def Memory.write (m : Memory) (i : Nat) (v : Byte) : Memory :=
  match m with
  | [] => [(i, v)]
  | (a, w) :: rest =>
    if i < a then (i, v) :: (a, w) :: rest
    else if i = a then (i, v) :: rest
    else (a, w) :: Memory.write rest i v

/-- The canonical form: indices strictly rising. No entry can equal what an unlisted index reads as,
since that is a free value (notes/assumptions/5.md). -/
abbrev Memory.wf (m : Memory) : Prop := m.Pairwise (fun x y => x.1 < y.1)

/-- `rx_buf[i]`: the stored byte, or the free value of a cell nothing has been stored in (R27, R38). -/
def Memory.byteAt (m : Memory) (i : Nat) : Byte := (m.read? i).getD (Config.unwrittenByte i)

/-- `rx_buf[0..rx_len)`: the de-stuffed bytes of the current or last frame (R27). -/
def RxUnit.received (rx : RxUnit) : List Byte := (List.range rx.len).map rx.buf.byteAt

/-! ### Errors: the block records a code and goes on (R220) -/

/-- The `cmderr` primitive: the first error is kept (R205). -/
def State.cmdError (s : State) (c : CmdErr) : State :=
  match s.cmdErr with
  | .none => s.withCmdErr c
  | .unknownOp | .rsvdBits | .sequence => s

/-- The code of an illegal command word (R202, R203). -/
def errorCode (e : DecodeError) : CmdErr :=
  match e with
  | .unknownOp => .unknownOp
  | .rsvdBits => .rsvdBits

/-! ### Transmit -/

/-- `emit(xs)`: append to the tail of `txq` (R13). -/
def TxUnit.emit (u : TxUnit) (xs : List Byte) : TxUnit := { u with queue := u.queue ++ xs }

/-- The line bytes TX_END emits: the checksum field, stuffed, low byte first, then the end delimiter (R135). -/
def endBytes (sum : Half) : List Byte :=
  stuff1 (lowByte sum) ++ stuff1 (highByte sum) ++ [endDelimiter]

/-- Room in `txq` for the bytes a command would emit (R141). -/
def State.hasRoom (s : State) (xs : List Byte) : Bool :=
  decide (s.tx.queue.length + xs.length ≤ s.params.txqDepth)

/-- `out(w, s)`: the bytes an event would emit in a state; none for an error, and none for every event
but the three TX commands (R136, R141). -/
def out (i : Instr) (s : State) : List Byte :=
  match i with
  | .txStart =>
    match s.tx.state with
    | .idle => [startDelimiter]
    | .body => []
  | .txData b =>
    match s.tx.state with
    | .idle => []
    | .body => stuff1 b
  | .txEnd =>
    match s.tx.state with
    | .idle => []
    | .body => endBytes s.tx.sum
  | .nop | .rxStart | .rxAbort | .ckClear | .ckAdd _ | .ckVerify _ _ | .errClear => []
  | .lineRx _ | .lineTx | .read _ | .rxTimeout | .reset => []

/-! ### Receive -/

/-- Is a receive in progress? (R166, R170, R184). -/
def RxUnit.receiving (rx : RxUnit) : Bool :=
  match rx.state with
  | .stopped => false
  | .idle | .inPacket | .escaped => true

/-- `finish(r)`: the receive ends; `rx_len` and `rx_buf` stay (R13, R228). -/
def RxUnit.finish (rx : RxUnit) (r : RxResult) : RxUnit :=
  { rx with state := .stopped, result := r }

/-- Is `rx_len == RX_CAP`? Never, for RX_CAP = infinity (R177). -/
def RxUnit.full (rx : RxUnit) (p : Config.Params) : Bool := decide (p.rxCap = some rx.len)

/-- The append primitive (R177). -/
def RxUnit.append (rx : RxUnit) (p : Config.Params) (v : Byte) : RxUnit :=
  if rx.full p then rx.finish .overflow
  else { rx with buf := rx.buf.write rx.len v, len := rx.len + 1 }

/-- `complete()`: validate and end the receive, in one event (R180). -/
def RxUnit.complete (rx : RxUnit) (p : Config.Params) : RxUnit :=
  { rx with check := validate p.minLen rx.received }.finish .frame

/-- What an accepted line byte does: the transition relation of R171 to R177 (R182). -/
def RxUnit.takeByte (rx : RxUnit) (p : Config.Params) (b : Byte) : RxUnit :=
  match rx.state with
  | .stopped => rx
  | .idle => if b = startDelimiter then { rx with state := .inPacket, len := 0 } else rx
  | .inPacket =>
    if b = escapeByte then { rx with state := .escaped }
    else if b = endDelimiter then rx.complete p
    else rx.append p b
  | .escaped =>
    match esc b with
    | none => rx.finish .invalidEscape
    | some v =>
      match (rx.append p v).state with
      | .escaped => { rx.append p v with state := .inPacket }
      | .stopped | .idle | .inPacket => rx.append p v

/-! ### Which events are enabled -/

/-- Is the event enabled, or the command word accepted, in this state? (R10). A TX command needs room for
the bytes it emits, and one that reports an error emits none and is always accepted (R80, R141, R205);
a line byte and a timeout need a receive in progress (R170, R184); the line transmitter needs a byte in
`txq` (R140). Everything else is always enabled (R80, R206, R250). -/
def enabled (i : Instr) (s : State) : Bool :=
  match i with
  | .txStart => (out .txStart s).isEmpty || s.hasRoom (out .txStart s)
  | .txData b => (out (.txData b) s).isEmpty || s.hasRoom (out (.txData b) s)
  | .txEnd => (out .txEnd s).isEmpty || s.hasRoom (out .txEnd s)
  | .lineTx => !s.tx.queue.isEmpty
  | .lineRx _ => s.rx.receiving
  | .rxTimeout => s.rx.receiving
  | .nop | .rxStart | .rxAbort | .ckClear | .ckAdd _ | .ckVerify _ _ | .errClear => true
  | .read _ | .reset => true

end Sys2Proof.Machine
end

