-- ==== Sys2Proof/Machine/Checksum.lean ====
section
/-! DEFINITION. The standalone checksum unit: CK_CLEAR, CK_ADD, CK_VERIFY (spec/40_checksum.md R103 to R106). -/

namespace Sys2Proof.Machine

open Host (Outcome)

/-- CK_CLEAR (R103). -/
def execCkClear (s : State) : Outcome State Fault Refusal :=
  .next (s.withCk { acc := 0, matchLe := false, matchBe := false })

/-- CK_ADD b: the sum wraps, the match flags are cleared (R104). -/
def execCkAdd (b : Byte) (s : State) : Outcome State Fault Refusal :=
  .next (s.withCk { acc := s.ck.acc + zext16 b, matchLe := false, matchBe := false })

/-- CK_VERIFY f0, f1: both readings of the field against `ck_acc` (R106, R107). -/
def execCkVerify (f0 f1 : Byte) (s : State) : Outcome State Fault Refusal :=
  .next (s.withCk
    { acc := s.ck.acc, matchLe := matchesLe s.ck.acc f0 f1, matchBe := matchesBe s.ck.acc f0 f1 })

end Sys2Proof.Machine
end

