-- ==== Sys2Proof/Machine/ReadSpace.lean ====
section
/-! DEFINITION. The read space: every register and RX_DATA, bit by bit (spec/20_memory.md R50 to R59). -/

namespace Sys2Proof.Machine

/-! ### Codes of the state elements (R21, R52) -/

/-- TX_BODY (R52). -/
def TxState.code (x : TxState) : BitVec 1 :=
  match x with
  | .idle => 0#1
  | .body => 1#1

/-- RX_STATE (R52). -/
def RxState.code (x : RxState) : BitVec 2 :=
  match x with
  | .stopped => 0#2
  | .idle => 1#2
  | .inPacket => 2#2
  | .escaped => 3#2

/-- RX_RESULT (R52); 6 and 7 never occur. -/
def RxResult.code (x : RxResult) : BitVec 3 :=
  match x with
  | .none => 0#3
  | .frame => 1#3
  | .invalidEscape => 2#3
  | .timeout => 3#3
  | .overflow => 4#3
  | .aborted => 5#3

/-- CMD_ERR (R52). -/
def CmdErr.code (x : CmdErr) : BitVec 2 :=
  match x with
  | .none => 0#2
  | .unknownOp => 1#2
  | .rsvdBits => 2#2
  | .sequence => 3#2

/-- A one-bit field. -/
def flagBit (b : Bool) : BitVec 1 := BitVec.ofBool b

/-! ### The registers -/

/-- STATUS, from bit 31 down to bit 0 (R52). -/
def statusWord (s : State) : Word :=
  0#3 ++ flagBit (rxIrq s.rx)
    ++ 0#2 ++ s.cmdErr.code
    ++ 0#2 ++ flagBit s.ck.matchBe ++ flagBit s.ck.matchLe
    ++ flagBit s.rx.check.trunc ++ flagBit s.rx.check.valid
    ++ flagBit s.rx.check.matchBe ++ flagBit s.rx.check.matchLe
    ++ 0#1 ++ s.rx.result.code
    ++ 0#2 ++ s.rx.state.code
    ++ BitVec.ofNat 4 s.tx.queue.length
    ++ 0#3 ++ s.tx.state.code

/-- The field of RX_LEN (R53). A length of 65536 or more, which no finite RX_CAP allows, has no stated
reading: a free value (notes/assumptions/6.md). -/
def rxLenField (n : Nat) : Half := if n < 65536 then BitVec.ofNat 16 n else Config.overlongLen n

/-- RX_LEN (R53). -/
def rxLenWord (s : State) : Word := 0#16 ++ rxLenField s.rx.len

/-- RX_CHECK (R54). -/
def rxCheckWord (s : State) : Word := s.rx.check.field ++ s.rx.check.sum

/-- TX_SUM (R56). -/
def txSumWord (s : State) : Word := 0#16 ++ s.tx.sum

/-- CK_ACC (R57). -/
def ckAccWord (s : State) : Word := 0#16 ++ s.ck.acc

/-- The RX_CAP field of PARAMS; RX_CAP = infinity reads as 0 (R58). -/
def rxCapField (p : Config.Params) : Half :=
  match p.rxCap with
  | none => 0#16
  | some n => BitVec.ofNat 16 n

/-- PARAMS (R58). -/
def paramsWord (s : State) : Word :=
  BitVec.ofNat 8 s.params.minLen ++ 0#4 ++ BitVec.ofNat 4 s.params.txqDepth ++ rxCapField s.params

/-- Does the buffer have a cell of this index? (R59); every index, for RX_CAP = infinity (R58). -/
def withinCap (p : Config.Params) (i : Nat) : Bool :=
  match p.rxCap with
  | none => true
  | some n => decide (i < n)

/-- The byte lane of RX_DATA at buffer index `i` (R59): the stored byte below `rx_len`, a free draw from
there up to RX_CAP, 0 beyond. `draw` numbers the free value. -/
def rxLane (s : State) (draw i : Nat) : Byte :=
  if withinCap s.params i then
    if i < s.rx.len then s.rx.buf.byteAt i else Config.freeByte draw
  else 0#8

/-- The RX_DATA word of buffer indices `4*k` to `4*k+3`, little-endian lanes (R59). -/
def rxDataWord (s : State) (k : Nat) : Word :=
  rxLane s (s.env.draws + 3) (4 * k + 3) ++ rxLane s (s.env.draws + 2) (4 * k + 2)
    ++ rxLane s (s.env.draws + 1) (4 * k + 1) ++ rxLane s s.env.draws (4 * k)

/-- The word at an aligned address of the read-space map (R51). The words with `4*k >= RX_CAP` have every
lane 0, which is how a reserved address reads (R55). -/
def wordAt (s : State) (a : Nat) : Word :=
  if a = 0x0000 then statusWord s
  else if a = 0x0004 then rxLenWord s
  else if a = 0x0008 then rxCheckWord s
  else if a = 0x000C then txSumWord s
  else if a = 0x0010 then ckAccWord s
  else if a = 0x0014 then paramsWord s
  else if a < 0x1000 then 0#32
  else rxDataWord s ((a - 0x1000) / 4)

/-- `MemRead(addr, 4)`: the word at `addr & 0xFFFC` (R55). -/
def memRead (s : State) (addr : Half) : Word := wordAt s (addr &&& 0xFFFC#16).toNat

end Sys2Proof.Machine
end

