-- ==== Sys2Proof/Machine/Control.lean ====
section
/-! DEFINITION. NOP, ERR_CLEAR, READ, RESET, and what an illegal command word does (spec/43_control.md, spec/70_reset_and_hazards.md). -/

namespace Sys2Proof.Machine

open Host (Outcome)

/-- NOP: no state changes (R200). -/
def execNop (s : State) : Outcome State Fault Refusal := .next s

/-- ERR_CLEAR (R201). -/
def execErrClear (s : State) : Outcome State Fault Refusal := .next (s.withCmdErr .none)

/-- READ: the word goes out on the read port and no state of the block changes (R55, R206). The four lanes
of an access use up four draws, so that no later read is tied to them (U2). -/
def execRead (addr : Half) (s : State) : Outcome State Fault Refusal :=
  .next (s.withEnv { s.env with
    readOut := s.env.readOut ++ [memRead s addr]
    draws := s.env.draws + 4 })

/-- The reset of the block: every element but `rx_buf` takes its reset value (R38, R250). The agents keep
what they hold out, and what is on the line already stays there (R250, R251). -/
def State.resetBlock (s : State) : State :=
  { s with
    tx := TxUnit.reset
    rx := RxUnit.reset s.rx.buf
    ck := CkUnit.reset
    cmdErr := .none }

/-- RESET (R250): always enabled. -/
def execReset (s : State) : Outcome State Fault Refusal := .next s.resetBlock

/-- An illegal command word records its error and does nothing else (R84, R202, R203). -/
def execIllegal (e : DecodeError) (s : State) : Outcome State Fault Refusal :=
  .next (s.cmdError (errorCode e))

end Sys2Proof.Machine
end

