-- ==== Sys2Proof/Machine/Receive.lean ====
section
/-! DEFINITION. The receive unit: RX_START, RX_ABORT, LINE_RX, RX_TIMEOUT (spec/42_receive.md). -/

namespace Sys2Proof.Machine

open Host (Outcome)

/-- RX_START (R165): fresh state in IDLE, from every state; `rx_buf` is not written. -/
def execRxStart (s : State) : Outcome State Fault Refusal :=
  .next (s.withRx
    { state := .idle, result := .none, buf := s.rx.buf, len := 0, check := Validation.clear })

/-- RX_ABORT (R166): ends a receive in progress; with none in progress it has no effect. -/
def execRxAbort (s : State) : Outcome State Fault Refusal :=
  match s.rx.receiving with
  | true => .next (s.withRx (s.rx.finish .aborted))
  | false => .next s

/-- LINE_RX b (R170): in STOPPED the byte is not accepted and nothing changes (R181;
notes/assumptions/3.md). -/
def execLineRx (b : Byte) (s : State) : Outcome State Fault Refusal :=
  match s.rx.receiving with
  | true => .next (s.withRx (s.rx.takeByte s.params b))
  | false => .next s

/-- RX_TIMEOUT (R184): ends a receive in progress; in STOPPED it is ignored. -/
def execRxTimeout (s : State) : Outcome State Fault Refusal :=
  match s.rx.receiving with
  | true => .next (s.withRx (s.rx.finish .timeout))
  | false => .next s

end Sys2Proof.Machine
end

