-- ==== Sys2Proof/Machine/Transmit.lean ====
section
/-! DEFINITION. The transmit unit: TX_START, TX_DATA, TX_END, LINE_TX (spec/41_transmit.md). -/

namespace Sys2Proof.Machine

open Host (Outcome)

/-- A command that emits `xs` and leaves the transmit unit `u` otherwise: accepted if there is room, else
it waits and nothing changes (R80, R141; notes/assumptions/3.md). -/
def State.transmit (s : State) (xs : List Byte) (u : TxUnit) : State :=
  if s.hasRoom xs then s.withTx (u.emit xs) else s

/-- TX_START (R133): a second one in an open frame is a sequence error (R204). -/
def execTxStart (s : State) : Outcome State Fault Refusal :=
  match s.tx.state with
  | .body => .next (s.cmdError .sequence)
  | .idle => .next (s.transmit [startDelimiter] { s.tx with sum := 0, state := .body })

/-- TX_DATA b (R134): the byte is stuffed, and its own value is added to the sum. -/
def execTxData (b : Byte) (s : State) : Outcome State Fault Refusal :=
  match s.tx.state with
  | .idle => .next (s.cmdError .sequence)
  | .body => .next (s.transmit (stuff1 b) { s.tx with sum := s.tx.sum + zext16 b })

/-- TX_END (R135): the checksum field and the end delimiter; `tx_sum` is left unchanged. -/
def execTxEnd (s : State) : Outcome State Fault Refusal :=
  match s.tx.state with
  | .idle => .next (s.cmdError .sequence)
  | .body => .next (s.transmit (endBytes s.tx.sum) { s.tx with state := .idle })

/-- LINE_TX (R140): the head of `txq` goes on the line. With `txq` empty the event has no step, and
nothing changes (notes/assumptions/3.md). -/
def execLineTx (s : State) : Outcome State Fault Refusal :=
  match s.tx.queue with
  | [] => .next s
  | b :: rest =>
    .next ((s.withTx { s.tx with queue := rest }).withEnv
      { s.env with lineOut := s.env.lineOut ++ [b] })

end Sys2Proof.Machine
end

