-- ==== Sys2Proof/Machine/Dispatch.lean ====
section
/-! DEFINITION. One arm per instruction: which meaning it has. -/

namespace Sys2Proof.Machine

def exec (i : Instr) (s : State) : Host.Outcome State Fault Refusal :=
  match i with
  | .nop => Sys2Proof.Machine.execNop s
  | .txStart => Sys2Proof.Machine.execTxStart s
  | .txData b => Sys2Proof.Machine.execTxData b s
  | .txEnd => Sys2Proof.Machine.execTxEnd s
  | .rxStart => Sys2Proof.Machine.execRxStart s
  | .rxAbort => Sys2Proof.Machine.execRxAbort s
  | .ckClear => Sys2Proof.Machine.execCkClear s
  | .ckAdd b => Sys2Proof.Machine.execCkAdd b s
  | .ckVerify f0 f1 => Sys2Proof.Machine.execCkVerify f0 f1 s
  | .errClear => Sys2Proof.Machine.execErrClear s
  | .lineRx b => Sys2Proof.Machine.execLineRx b s
  | .lineTx => Sys2Proof.Machine.execLineTx s
  | .read addr => Sys2Proof.Machine.execRead addr s
  | .rxTimeout => Sys2Proof.Machine.execRxTimeout s
  | .reset => Sys2Proof.Machine.execReset s

end Sys2Proof.Machine
end

