-- ==== Sys2Proof/Machine/Ports.lean ====
section
/-! DEFINITION. Whose turn it is, what that agent presents, and what is taken from its port (spec/00_scope.md R9; R63, R80, R181, R225). -/

namespace Sys2Proof.Machine

/-- The agent that goes first among those presenting an event in one cycle, and the others left (R225).
RESET wins over everything and the others of its cycle are dropped. -/
def Cycle.next (c : Cycle) : Option (Agent × Cycle) :=
  if c.reset then some (.reset, Cycle.quiet)
  else if c.command then some (.command, { c with command := false })
  else if c.lineTx then some (.lineTx, { c with lineTx := false })
  else if c.lineRx then some (.lineRx, { c with lineRx := false })
  else if c.rxTimeout then some (.rxTimeout, { c with rxTimeout := false })
  else none

/-- Whose turn it is: the agent, who else presents an event in the same cycle, and what comes later. -/
structure Grant where
  agent : Agent
  sameCycle : Cycle
  later : List Turn
  deriving DecidableEq, Repr

/-- The next event of the total order (R63). A cycle in which nobody presents an event is passed over. -/
def nextGrant (sched : List Turn) : Option Grant :=
  match sched with
  | [] => none
  | .agent a :: rest => some { agent := a, sameCycle := Cycle.quiet, later := rest }
  | .cycle c :: rest =>
    match c.next with
    | none => nextGrant rest
    | some (a, c') => some { agent := a, sameCycle := c', later := rest }

/-- What is left of the cycle after the agent's turn: a timeout is dropped if a line byte was accepted in
the same cycle (R185, R225). -/
def Grant.restOfCycle (g : Grant) (accepted : Bool) : Cycle :=
  match g.agent with
  | .lineRx => if accepted then { g.sameCycle with rxTimeout := false } else g.sameCycle
  | .reset | .command | .lineTx | .rxTimeout | .read _ => g.sameCycle

/-- The schedule after the agent's turn. -/
def Grant.rest (g : Grant) (accepted : Bool) : List Turn :=
  if g.restOfCycle accepted = Cycle.quiet then g.later
  else .cycle (g.restOfCycle accepted) :: g.later

/-- What the agent presents: the first word waiting at the command port (R80), the byte the line receiver
offers (R170), an access, a request or a pulse. None if its port is empty. -/
def presented (a : Agent) (v : Env) : Option Event :=
  match a with
  | .reset => some .resetPulse
  | .command => v.commands.head?.map Event.command
  | .lineTx => some .lineTake
  | .lineRx => v.lineIn.head?.map Event.lineByte
  | .rxTimeout => some .timeoutPulse
  | .read addr => some (.readAddr addr)

/-- The environment after an agent's event was accepted: the word or the byte it presented is consumed,
exactly once (R62, R80, R170). -/
def Env.consume (v : Env) (a : Agent) : Env :=
  match a with
  | .command => { v with commands := v.commands.tail }
  | .lineRx => { v with lineIn := v.lineIn.tail }
  | .reset | .lineTx | .rxTimeout | .read _ => v

/-- The state after the agent's turn, before the event's own effect. An event that is not accepted leaves
its word or byte where it is, with the others behind it (R80, R181). -/
def State.afterTurn (s : State) (g : Grant) (accepted : Bool) : State :=
  match accepted with
  | true => s.withEnv { s.env.consume g.agent with schedule := g.rest true }
  | false => s.withEnv { s.env with schedule := g.rest false }

/-- An event at its agent's port, first in the total order: what `withFetchWord` stores. -/
def Env.offer (v : Env) (e : Event) : Env :=
  match e with
  | .command w => { v with commands := w :: v.commands, schedule := .agent .command :: v.schedule }
  | .lineByte b => { v with lineIn := b :: v.lineIn, schedule := .agent .lineRx :: v.schedule }
  | .lineTake => { v with schedule := .agent .lineTx :: v.schedule }
  | .readAddr a => { v with schedule := .agent (.read a) :: v.schedule }
  | .timeoutPulse => { v with schedule := .agent .rxTimeout :: v.schedule }
  | .resetPulse => { v with schedule := .agent .reset :: v.schedule }

end Sys2Proof.Machine
end

