-- ==== Sys2Proof/Machine/Step.lean ====
section
/-! DEFINITION. One step: the next event of the total order takes effect (spec/00_scope.md R9, R10; spec/20_memory.md R63). -/

namespace Sys2Proof.Machine

/-- One step. With no event to come the block holds its state (R235). The agent whose turn it is presents
an event, which is decoded; an illegal command word is accepted and records its error (R84, R205); an
event that is not enabled changes nothing but that its turn has passed (R10). -/
def step (s : State) : Host.Outcome State Fault Refusal :=
  match nextGrant s.env.schedule with
  | none => .next s
  | some g =>
    match presented g.agent s.env with
    | none => .next (s.afterTurn g false)
    | some ev =>
      match decode ev with
      | .error e => execIllegal e (s.afterTurn g true)
      | .ok i => exec i (s.afterTurn g (enabled i s))

/-- The same state with an instruction's table bits presented at their port, first in the total order, so
that the next step runs exactly it (notes/assumptions/11.md and 12.md). -/
def State.withFetchWord (s : State) (nbits w : Nat) : State :=
  match tableEvent nbits w with
  | none => s
  | some e => s.withEnv (s.env.offer e)

end Sys2Proof.Machine
end

