-- ==== Sys2Proof/Machine/Assembler.lean ====
section
/-! DEFINITION. The spec's assembler syntax and pseudo-instructions (spec/30_encoding.md R88, R89). Not part of the block (D29): no step uses it. -/

namespace Sys2Proof.Machine

/-! ### Pseudo-instructions (R89) -/

/-- `TX_FRAME b0, ..., b(n-1)`. -/
def txFrame (body : List Byte) : List Instr := .txStart :: (body.map Instr.txData ++ [.txEnd])

/-- `CK_SUM b0, ..., b(n-1)`. -/
def ckSum (xs : List Byte) : List Instr := .ckClear :: xs.map Instr.ckAdd

/-- `LINE_RX_SEQ b0, ..., b(n-1)`. -/
def lineRxSeq (xs : List Byte) : List Instr := xs.map Instr.lineRx

/-! ### Source lines (R88), as lists of characters -/

/-- The line up to its comment. -/
def uncomment (cs : List Char) : List Char := cs.takeWhile (· != ';')

def isBlank (c : Char) : Bool := c == ' ' || c == '\t'

/-- Without the blanks at either end. -/
def trim (cs : List Char) : List Char := ((cs.dropWhile isBlank).reverse.dropWhile isBlank).reverse

/-- The parts between commas, each trimmed. -/
def splitCommas (cs : List Char) : List (List Char) := (cs.splitOn ',').map trim

/-- The digits of R88's numbers in the order of their values. A hexadecimal digit is read in either case
(DESIGN CHOICE, notes/assumptions/20.md). -/
def digitChars : List (List Char) :=
  "0123456789".toList.map ([·]) ++ List.zipWith ([·, ·]) "abcdef".toList "ABCDEF".toList

/-- The value of a digit is its place among the digits of the base. -/
def digitIn (base : Nat) (c : Char) : Option Nat := (digitChars.take base).findIdx? (·.contains c)

/-- A number written in a base, most significant digit first; there is at least one digit. -/
def numberIn (base : Nat) (cs : List Char) : Option Nat :=
  if cs.isEmpty then none
  else (cs.mapM (digitIn base)).map (List.foldl (fun value place => value * base + place) 0)

/-- R88: `0x`-prefixed hexadecimal, or decimal. -/
def numberOf : List Char → Option Nat
  | '0' :: 'x' :: hex => numberIn 16 hex
  | decimal => numberIn 10 decimal

/-- A number below `2^n`. -/
def operandOf (n : Nat) (cs : List Char) : Option (BitVec n) :=
  match numberOf cs with
  | none => none
  | some v => if v < 2 ^ n then some (BitVec.ofNat n v) else none

/-- The registers of the read space by name (R51). RX_DATA names a range of words, and R88 does not say
which one `READ RX_DATA` reads: the model takes the first, 0x1000 (DESIGN CHOICE,
notes/assumptions/20.md). -/
def registerAddr (cs : List Char) : Option Half :=
  if cs = ['S', 'T', 'A', 'T', 'U', 'S'] then some 0x0000#16
  else if cs = ['R', 'X', '_', 'L', 'E', 'N'] then some 0x0004#16
  else if cs = ['R', 'X', '_', 'C', 'H', 'E', 'C', 'K'] then some 0x0008#16
  else if cs = ['T', 'X', '_', 'S', 'U', 'M'] then some 0x000C#16
  else if cs = ['C', 'K', '_', 'A', 'C', 'C'] then some 0x0010#16
  else if cs = ['P', 'A', 'R', 'A', 'M', 'S'] then some 0x0014#16
  else if cs = ['R', 'X', '_', 'D', 'A', 'T', 'A'] then some 0x1000#16
  else none

/-- The operand of READ: a register's name, or a `0x` address. -/
def readOperand (cs : List Char) : Option Half :=
  match registerAddr cs with
  | some a => some a
  | none =>
    match cs with
    | '0' :: 'x' :: _ => operandOf 16 cs
    | _ => none

/-- A mnemonic and the shape of its operands. -/
def assembleWords (mnemonic : List Char) (operands : List (List Char)) : Option (List Instr) :=
  match mnemonic, operands with
  | ['N', 'O', 'P'], [] => some [.nop]
  | ['T', 'X', '_', 'S', 'T', 'A', 'R', 'T'], [] => some [.txStart]
  | ['T', 'X', '_', 'D', 'A', 'T', 'A'], [b] => (operandOf 8 b).map ([.txData ·])
  | ['T', 'X', '_', 'E', 'N', 'D'], [] => some [.txEnd]
  | ['R', 'X', '_', 'S', 'T', 'A', 'R', 'T'], [] => some [.rxStart]
  | ['R', 'X', '_', 'A', 'B', 'O', 'R', 'T'], [] => some [.rxAbort]
  | ['C', 'K', '_', 'C', 'L', 'E', 'A', 'R'], [] => some [.ckClear]
  | ['C', 'K', '_', 'A', 'D', 'D'], [b] => (operandOf 8 b).map ([.ckAdd ·])
  | ['C', 'K', '_', 'V', 'E', 'R', 'I', 'F', 'Y'], [f0, f1] =>
    match operandOf 8 f0, operandOf 8 f1 with
    | some x, some y => some [.ckVerify x y]
    | _, _ => none
  | ['E', 'R', 'R', '_', 'C', 'L', 'E', 'A', 'R'], [] => some [.errClear]
  | ['L', 'I', 'N', 'E', '_', 'R', 'X'], [b] => (operandOf 8 b).map ([.lineRx ·])
  | ['L', 'I', 'N', 'E', '_', 'T', 'X'], [] => some [.lineTx]
  | ['R', 'X', '_', 'T', 'I', 'M', 'E', 'O', 'U', 'T'], [] => some [.rxTimeout]
  | ['R', 'E', 'S', 'E', 'T'], [] => some [.reset]
  | ['R', 'E', 'A', 'D'], [a] => (readOperand a).map ([.read ·])
  | ['T', 'X', '_', 'F', 'R', 'A', 'M', 'E'], bs => (bs.mapM (operandOf 8)).map txFrame
  | ['C', 'K', '_', 'S', 'U', 'M'], bs => (bs.mapM (operandOf 8)).map ckSum
  | ['L', 'I', 'N', 'E', '_', 'R', 'X', '_', 'S', 'E', 'Q'], bs => (bs.mapM (operandOf 8)).map lineRxSeq
  | _, _ => none

/-- One source line; an empty line, or one with only a comment, is no event (R88). -/
def assemble (line : List Char) : Option (List Instr) :=
  let text := trim (uncomment line)
  let mnemonic := text.takeWhile (fun c => !isBlank c)
  let rest := trim (text.dropWhile (fun c => !isBlank c))
  match text with
  | [] => some []
  | _ => assembleWords mnemonic (match rest with | [] => [] | _ => splitCommas rest)

end Sys2Proof.Machine
end

