-- ==== Sys2Proof/Safety.lean ====
section
/-! DEFINITION. The words the claims use: the invariant (spec/10_state.md R35), sequences of events, and the host's reading of an outcome (spec/60_exceptions.md R222, spec/70 R262 to R264). -/

namespace Sys2Proof.Machine

/-! ### The invariant -/

/-- What every state that meets R35 (items 1 to 5) and R21, R27, R29, R30 satisfies. Item 6 of R35 speaks of
the last CK_VERIFY and is a statement of its own. -/
structure State.Inv (s : State) : Prop where
  /-- the parameters are legal (R7) -/
  paramsLegal : s.params.wf = true
  /-- R35.1 -/
  queueFits : s.tx.queue.length ≤ s.params.txqDepth
  /-- R35.2 -/
  lenFits : ∀ n, s.params.rxCap = some n → s.rx.len ≤ n
  /-- R35.3 -/
  resultStopped : s.rx.result ≠ .none → s.rx.state = .stopped
  /-- R35.4 -/
  checkClear : s.rx.result ≠ .frame → s.rx.check = Validation.clear
  /-- the validator values are those of the last completed frame (R29, R30, R110) -/
  checkOfFrame : s.rx.result = .frame → s.rx.check = validate s.params.minLen s.rx.received
  /-- R35.5 -/
  validSound : s.rx.check.valid = true →
    s.rx.check.trunc = false ∧ (s.rx.check.matchLe = true ∨ s.rx.check.matchBe = true)
  /-- `rx_buf` keeps its canonical form -/
  bufWf : s.rx.buf.wf
  /-- `rx_buf` is an array of RX_CAP bytes (R21) -/
  bufWithinCap : ∀ n, s.params.rxCap = some n → ∀ i, (s.rx.buf.read? i).isSome → i < n
  /-- every index below `rx_len` holds a byte that was received (R27) -/
  bufStored : ∀ i, i < s.rx.len → (s.rx.buf.read? i).isSome

/-! ### Command words -/

/-- The ten assigned OP values (R82). -/
def assignedOps : List Byte :=
  [0x00#8, 0x01#8, 0x02#8, 0x03#8, 0x10#8, 0x11#8, 0x20#8, 0x21#8, 0x22#8, 0x30#8]

/-- The OP of the word is assigned and one of its reserved bits is set (R83). -/
def reservedBitSet (w : Word) : Prop :=
  (w.extractLsb' 24 8 ∈ [0x00#8, 0x01#8, 0x03#8, 0x10#8, 0x11#8, 0x20#8, 0x30#8] ∧
    w &&& 0x00FFFFFF#32 ≠ 0#32) ∨
  (w.extractLsb' 24 8 ∈ [0x02#8, 0x21#8] ∧ w &&& 0x00FFFF00#32 ≠ 0#32) ∨
  (w.extractLsb' 24 8 = 0x22#8 ∧ w &&& 0x00FF0000#32 ≠ 0#32)

/-- The first error is kept (R205). -/
def firstError (old new : CmdErr) : CmdErr := if old = .none then new else old

/-- The word is accepted at once, records the error if none is recorded yet, and does nothing else
(R202, R203, R205): what a step makes of it wherever it stands first at the command port. -/
def rejectedWith (w : Word) (c : CmdErr) : Prop :=
  ∀ (s : State) (rest : List Word) (later : List Turn),
    s.env.commands = w :: rest → s.env.schedule = .agent .command :: later →
    step s = .next { s with
      cmdErr := firstError s.cmdErr c
      env := { s.env with commands := rest, schedule := later } }

/-- The rest of a cycle and what comes after it: a cycle in which nobody is left is over. -/
def thenLater (c : Cycle) (later : List Turn) : List Turn :=
  if c = Cycle.quiet then later else .cycle c :: later

/-! ### Sequences of events -/

/-- The events one after another, each taking its effect (R63). -/
def execAll (is : List Instr) (s : State) : Host.Outcome State Fault Refusal :=
  match is with
  | [] => .next s
  | i :: rest =>
    match exec i s with
    | .next t => execAll rest t
    | .fault r => .fault r
    | .refused r => .refused r

/-- `k` steps, one after another: the host's `Core.run` of this machine (`run_eq_core_run`). -/
def run (k : Nat) (s : State) : Host.Outcome State Fault Refusal :=
  match k with
  | 0 => .next s
  | k + 1 =>
    match step s with
    | .next t => run k t
    | .fault r => .fault r
    | .refused r => .refused r

/-- The three commands of the transmit unit (R132). -/
def isTxCommand (i : Instr) : Bool :=
  match i with
  | .txStart | .txData _ | .txEnd => true
  | .nop | .rxStart | .rxAbort | .ckClear | .ckAdd _ | .ckVerify _ _ | .errClear => false
  | .lineRx _ | .lineTx | .read _ | .rxTimeout | .reset => false

/-- The three commands of the checksum unit (R67). -/
def isCkCommand (i : Instr) : Bool :=
  match i with
  | .ckClear | .ckAdd _ | .ckVerify _ _ => true
  | .nop | .txStart | .txData _ | .txEnd | .rxStart | .rxAbort | .errClear => false
  | .lineRx _ | .lineTx | .read _ | .rxTimeout | .reset => false

/-- What writes the transmit unit, besides reset: TX commands and line-transmit events (R67). -/
def touchesTx (i : Instr) : Bool := isTxCommand i || decide (i = .lineTx)

/-- What writes the receive unit, besides reset: RX commands, line-receive events and `rx_timeout` (R67). -/
def touchesRx (i : Instr) : Bool :=
  match i with
  | .rxStart | .rxAbort | .lineRx _ | .rxTimeout => true
  | .nop | .txStart | .txData _ | .txEnd | .ckClear | .ckAdd _ | .ckVerify _ _ | .errClear => false
  | .lineTx | .read _ | .reset => false

/-- The body with bit `k` of its byte `j` flipped. -/
def flipBit (xs : List Byte) (j k : Nat) : List Byte :=
  xs.modify j (fun b => b ^^^ BitVec.twoPow 8 k)

/-! ### The host's reading of what the block reports -/

/-- Transmission of a frame is complete (R64, R140). -/
def transmitComplete (s : State) : Bool := decide (s.tx.state = .idle) && s.tx.queue.isEmpty

/-- A host may use the received frame (R112, R264). -/
def frameUsable (s : State) : Bool := decide (s.rx.result = .frame) && s.rx.check.valid

/-- The source's error kinds that R222 maps block outcomes to. -/
inductive SourceKind where
  | invalidEscape | timeout | readError | checksumMismatch | truncated
  /-- a parsed Response with `valid = true` -/
  | response
  /-- OVERFLOW: no source counterpart, the host's choice -/
  | hostChoice
  deriving DecidableEq, Repr

/-- The table of R222, for an ended receive; none while no receive has ended. For a FRAME that is truncated or
matches in neither reading, R222 and R223 leave the host two forms, the error kind or a returned Response
with `valid = false`: this answers the error kind (DESIGN CHOICE, notes/assumptions/22.md). -/
def sourceKind (rx : RxUnit) : Option SourceKind :=
  match rx.result with
  | .none => none
  | .invalidEscape => some .invalidEscape
  | .timeout => some .timeout
  | .aborted => some .readError
  | .overflow => some .hostChoice
  | .frame =>
    if rx.check.trunc then some .truncated
    else if rx.check.valid then some .response
    else some .checksumMismatch

/-- Whether the source's dispatcher retries (R222): none where there is nothing to retry, or where it is
the host's choice. -/
def SourceKind.retried (k : SourceKind) : Option Bool :=
  match k with
  | .timeout | .readError => some true
  | .invalidEscape | .checksumMismatch | .truncated => some false
  | .response | .hostChoice => none

/-- Does the host finish each frame it starts, with exactly one TX_START and one TX_END? (R263). `opened`
says that a frame is open before the first event. Whether a frame that RESET cuts short breaks the duty, the
spec does not say: here it does not, and after RESET no frame is open (DESIGN CHOICE,
notes/assumptions/23.md). -/
def finishesFrames (opened : Bool) (is : List Instr) : Bool :=
  match is with
  | [] => !opened
  | i :: rest =>
    match i with
    | .txStart => !opened && finishesFrames true rest
    | .txData _ => opened && finishesFrames true rest
    | .txEnd => opened && finishesFrames false rest
    | .nop | .rxStart | .rxAbort | .ckClear | .ckAdd _ | .ckVerify _ _ | .errClear =>
      finishesFrames opened rest
    | .lineRx _ | .lineTx | .read _ | .rxTimeout => finishesFrames opened rest
    | .reset => finishesFrames false rest

/-- A run of `k` steps from `s` ends in a state: it never stops with a fault or a refusal. -/
def SafeRun (k : Nat) (s : State) : Prop := ∃ t, run k s = .next t

end Sys2Proof.Machine
end

