-- ==== Sys2Proof/Certificates/Slice0/Obligations.lean ====
section
/-! DEFINITION. The statements for the provers. -/

open Sys2Proof Sys2Proof.Machine

/-! ### Encoding -/

/-- R82: each row of the opcode map, as a mask and a match, against the decoder; no other word decodes. -/
def Obligations.CommandWordsMatchTheirRows : Prop :=
  ∀ w : Word,
    (decode (.command w) = .ok .nop ↔ w &&& 0xFFFFFFFF#32 = 0x00000000#32) ∧
    (decode (.command w) = .ok .txStart ↔ w &&& 0xFFFFFFFF#32 = 0x01000000#32) ∧
    (∀ b, decode (.command w) = .ok (.txData b) ↔
      w &&& 0xFFFFFF00#32 = 0x02000000#32 ∧ b = w.extractLsb' 0 8) ∧
    (decode (.command w) = .ok .txEnd ↔ w &&& 0xFFFFFFFF#32 = 0x03000000#32) ∧
    (decode (.command w) = .ok .rxStart ↔ w &&& 0xFFFFFFFF#32 = 0x10000000#32) ∧
    (decode (.command w) = .ok .rxAbort ↔ w &&& 0xFFFFFFFF#32 = 0x11000000#32) ∧
    (decode (.command w) = .ok .ckClear ↔ w &&& 0xFFFFFFFF#32 = 0x20000000#32) ∧
    (∀ b, decode (.command w) = .ok (.ckAdd b) ↔
      w &&& 0xFFFFFF00#32 = 0x21000000#32 ∧ b = w.extractLsb' 0 8) ∧
    (∀ f0 f1, decode (.command w) = .ok (.ckVerify f0 f1) ↔
      w &&& 0xFFFF0000#32 = 0x22000000#32 ∧ f0 = w.extractLsb' 0 8 ∧ f1 = w.extractLsb' 8 8) ∧
    (decode (.command w) = .ok .errClear ↔ w &&& 0xFFFFFFFF#32 = 0x30000000#32) ∧
    ((∃ i, decode (.command w) = .ok i) ↔
      (w ∈ [0x00000000#32, 0x01000000#32, 0x03000000#32, 0x10000000#32, 0x11000000#32,
          0x20000000#32, 0x30000000#32] ∨
        w &&& 0xFFFFFF00#32 = 0x02000000#32 ∨ w &&& 0xFFFFFF00#32 = 0x21000000#32 ∨
        w &&& 0xFFFF0000#32 = 0x22000000#32))

/-- R83 and the order of R84: the OP is looked at first, then the reserved bits; a word has one error at most. -/
def Obligations.IllegalWordsAreRejectedInOrder : Prop :=
  ∀ w : Word,
    (decode (.command w) = .error .unknownOp ↔ w.extractLsb' 24 8 ∉ assignedOps) ∧
    (decode (.command w) = .error .rsvdBits ↔ reservedBitSet w)

/-- Decoding gives back every instruction that was encoded, with every operand (spec/30_encoding.md). -/
def Obligations.DecodeOfEncodeIsTheInstruction : Prop :=
  ∀ i : Instr, decode (encode i) = .ok i

/-- Every word that decodes is the one word of its instruction: decoding loses no bit (spec/30_encoding.md). -/
def Obligations.EncodeOfDecodeIsTheWord : Prop :=
  ∀ (w : Word) (i : Instr), decode (.command w) = .ok i → encode i = .command w

/-- Words written out from the spec's encodings (R88 and the vectors of spec/95_test_vectors.md). -/
def Obligations.WrittenOutWordsDecode : Prop :=
  decode (.command 0x020000A5#32) = .ok (.txData 0xA5#8) ∧
  decode (.command 0x220000E1#32) = .ok (.ckVerify 0xE1#8 0x00#8) ∧
  decode (.command 0x2200E100#32) = .ok (.ckVerify 0x00#8 0xE1#8) ∧
  decode (.command 0x10000000#32) = .ok .rxStart ∧
  decode (.command 0x30000000#32) = .ok .errClear ∧
  decode (.command 0x04000001#32) = .error .unknownOp ∧
  decode (.command 0x02000100#32) = .error .rsvdBits

/-! ### Steps and ports -/

/-- A step is the decoded event's own effect, after its turn has been taken from the schedule and, if the
event is enabled, its word or byte from its port (R9, R62, R80, R170). That an event that is not enabled has a
next state is the model's own choice (notes/assumptions/3.md). -/
def Obligations.StepRunsTheDecodedEvent : Prop :=
  ∀ (s : State) (a : Agent) (later : List Turn) (ev : Event) (i : Instr),
    s.env.schedule = .agent a :: later → presented a s.env = some ev → decode ev = .ok i →
    step s = exec i { s with env := { s.env with
      schedule := later
      commands := if a = .command ∧ enabled i s = true then s.env.commands.tail else s.env.commands
      lineIn := if a = .lineRx ∧ enabled i s = true then s.env.lineIn.tail else s.env.lineIn } }

/-- R202 and R203: an illegal word is accepted at once, records its error if none is recorded, and changes
nothing else. -/
def Obligations.IllegalWordRecordsItsError : Prop :=
  ∀ w : Word,
    (w.extractLsb' 24 8 ∉ assignedOps → rejectedWith w .unknownOp) ∧
    (reservedBitSet w → rejectedWith w .rsvdBits)

/-- The order in which the agents of one cycle are taken (R225, R185). RESET drops the others; a line byte
that is accepted drops the timeout of its cycle. The cycle as an entry of the schedule is the model's own
form (notes/assumptions/15.md), and so is that a word or byte that is not accepted is a step whose turn
passes (notes/assumptions/3.md). -/
def Obligations.SameCycleOrder : Prop :=
  ∀ (s : State) (c : Cycle) (later : List Turn), s.env.schedule = .cycle c :: later →
    (c.reset = true → step s = exec .reset { s with env := { s.env with schedule := later } }) ∧
    (c.reset = false → c.command = true → ∀ w rest, s.env.commands = w :: rest →
      (∀ i, decode (.command w) = .ok i → step s = exec i { s with env := { s.env with
        commands := if enabled i s = true then rest else w :: rest
        schedule := thenLater { c with command := false } later } }) ∧
      (∀ e, decode (.command w) = .error e → step s = .next { s with
        cmdErr := firstError s.cmdErr (errorCode e)
        env := { s.env with
          commands := rest, schedule := thenLater { c with command := false } later } })) ∧
    (c.reset = false → c.command = false → c.lineTx = true →
      step s = exec .lineTx { s with env := { s.env with
        schedule := thenLater { c with lineTx := false } later } }) ∧
    (c.reset = false → c.command = false → c.lineTx = false → c.lineRx = true →
      ∀ b rest, s.env.lineIn = b :: rest →
      (s.rx.state ≠ .stopped →
        step s = exec (.lineRx b) { s with env := { s.env with lineIn := rest, schedule := later } }) ∧
      (s.rx.state = .stopped →
        step s = .next { s with env := { s.env with
          schedule := thenLater { c with lineRx := false } later } })) ∧
    (c.reset = false → c.command = false → c.lineTx = false → c.lineRx = false → c.rxTimeout = true →
      step s = exec .rxTimeout { s with env := { s.env with schedule := later } })

/-- The block holds its state between events, and an event that is not enabled just waits: every word and
byte stays where it is (spec/60_exceptions.md, section 6). That an empty schedule is a step at all is the
model's own choice (notes/assumptions/13.md), and so is that an event that is not enabled is a step, whose
turn passes, where the spec says it has none (notes/assumptions/3.md). -/
def Obligations.StateIsHeldBetweenEvents : Prop :=
  ∀ s t : State, step s = .next t →
    (s.env.schedule = [] → t = s) ∧
    (∀ g ev i, nextGrant s.env.schedule = some g → presented g.agent s.env = some ev →
      decode ev = .ok i → enabled i s = false →
      t = { s with env := { s.env with schedule := t.env.schedule } })

/-- From every state a step has a next state: no event makes the block trap, fault, halt or refuse
(spec/60_exceptions.md, section 1), for which the model's `Fault` has no constructor and its one `Refusal` is
never raised (the model's deduction, notes/assumptions/19.md). That there is a step at all for an event that
is not enabled, which the spec says has none, and for an empty schedule is the model's own choice
(notes/assumptions/3.md and 13.md). -/
def Obligations.NoEventStopsTheBlock : Prop :=
  ∀ s : State, ∃ t, step s = .next t

/-- R37: no step changes RX_CAP, TXQ_DEPTH or MIN_LEN, which PARAMS shows (R58). -/
def Obligations.ParametersNeverChange : Prop :=
  ∀ s t : State, step s = .next t →
    t.params = s.params ∧ memRead t 0x0014#16 = memRead s 0x0014#16

/-! ### Control -/

/-- R200: NOP, its word, and what a set reserved bit makes of it. -/
def Obligations.NopChangesNothing : Prop :=
  (∀ s : State, exec .nop s = .next s ∧ enabled .nop s = true) ∧
  decode (.command 0x00000000#32) = .ok .nop ∧
  (∀ w : Word, w.extractLsb' 24 8 = 0x00#8 → w &&& 0x00FFFFFF#32 ≠ 0#32 →
    rejectedWith w .rsvdBits)

/-- R201: ERR_CLEAR clears `cmd_err` and touches nothing else. -/
def Obligations.ErrClearResult : Prop :=
  (∀ s : State, exec .errClear s = .next { s with cmdErr := .none }) ∧
  decode (.command 0x30000000#32) = .ok .errClear ∧
  (∀ w : Word, w.extractLsb' 24 8 = 0x30#8 → w &&& 0x00FFFFFF#32 ≠ 0#32 →
    rejectedWith w .rsvdBits)

/-- R33: a recorded error stays until ERR_CLEAR or reset, whatever the step. -/
def Obligations.CommandErrorIsSticky : Prop :=
  ∀ s t : State, s.cmdErr ≠ .none → step s = .next t → t.cmdErr ≠ s.cmdErr →
    t.cmdErr = .none ∧
    ∃ g ev, nextGrant s.env.schedule = some g ∧ presented g.agent s.env = some ev ∧
      (decode ev = .ok .errClear ∨ decode ev = .ok .reset)

/-! ### The checksum unit -/

/-- R103. -/
def Obligations.CkClearResult : Prop :=
  (∀ s : State, exec .ckClear s =
    .next { s with ck := { acc := 0#16, matchLe := false, matchBe := false } }) ∧
  decode (.command 0x20000000#32) = .ok .ckClear ∧
  (∀ w : Word, w.extractLsb' 24 8 = 0x20#8 → w &&& 0x00FFFFFF#32 ≠ 0#32 →
    rejectedWith w .rsvdBits)

/-- R104: the sum wraps modulo 65536, both match flags are cleared, nothing else changes. -/
def Obligations.CkAddResult : Prop :=
  (∀ (s : State) (b : Byte), ∃ t, exec (.ckAdd b) s = .next t ∧
    t.ck.acc.toNat = (s.ck.acc.toNat + b.toNat) % 65536 ∧
    t.ck.matchLe = false ∧ t.ck.matchBe = false ∧
    t = { s with ck := t.ck }) ∧
  (∀ b : Byte, decode (.command (0x21000000#32 ||| b.setWidth 32)) = .ok (.ckAdd b)) ∧
  (∀ w : Word, w.extractLsb' 24 8 = 0x21#8 → w &&& 0x00FFFF00#32 ≠ 0#32 →
    rejectedWith w .rsvdBits)

/-- R106 and R107: CK_VERIFY compares both readings of the field with `ck_acc`, which it keeps. -/
def Obligations.CkVerifyResult : Prop :=
  (∀ (s : State) (f0 f1 : Byte), ∃ t, exec (.ckVerify f0 f1) s = .next t ∧
    (t.ck.matchLe = true ↔ s.ck.acc.toNat = f0.toNat + 256 * f1.toNat) ∧
    (t.ck.matchBe = true ↔ s.ck.acc.toNat = 256 * f0.toNat + f1.toNat) ∧
    t.ck.acc = s.ck.acc ∧ t = { s with ck := t.ck }) ∧
  (∀ f0 f1 : Byte, decode (.command (0x22000000#32 ||| f1.setWidth 32 <<< 8 ||| f0.setWidth 32)) =
    .ok (.ckVerify f0 f1)) ∧
  (∀ w : Word, w.extractLsb' 24 8 = 0x22#8 → w &&& 0x00FF0000#32 ≠ 0#32 →
    rejectedWith w .rsvdBits)

/-- CK_SUM leaves the checksum of its bytes in `ck_acc` and changes nothing outside the checksum unit (the
spec's sentence "After CK_CLEAR followed by CK_ADD x0 up to CK_ADD x(n-1) ...", marked derived there). -/
def Obligations.CkSumLeavesTheChecksum : Prop :=
  ∀ (s : State) (xs : List Byte),
    execAll (ckSum xs) s =
      .next { s with ck := { acc := checksum xs, matchLe := false, matchBe := false } }

/-- A set CK match flag always refers to the present `ck_acc`: CK_VERIFY makes it so, and no other event
breaks it (item 6 of the invariants of spec/10_state.md, marked derived there; section 5). -/
def Obligations.CkFlagsReferToThePresentSum : Prop :=
  ∀ f0 f1 : Byte,
    (∀ s t : State, exec (.ckVerify f0 f1) s = .next t →
      (t.ck.matchLe = true → t.ck.acc.toNat = f0.toNat + 256 * f1.toNat) ∧
      (t.ck.matchBe = true → t.ck.acc.toNat = 256 * f0.toNat + f1.toNat)) ∧
    (∀ (i : Instr) (s t : State), (∀ g0 g1, i ≠ .ckVerify g0 g1) → exec i s = .next t →
      (s.ck.matchLe = true → s.ck.acc.toNat = f0.toNat + 256 * f1.toNat) →
      (s.ck.matchBe = true → s.ck.acc.toNat = 256 * f0.toNat + f1.toNat) →
      (t.ck.matchLe = true → t.ck.acc.toNat = f0.toNat + 256 * f1.toNat) ∧
      (t.ck.matchBe = true → t.ck.acc.toNat = 256 * f0.toNat + f1.toNat))

/-- The arithmetic laws of `checksum` (the six items the spec derives from R100). -/
def Obligations.ChecksumLaws : Prop :=
  (∀ xs ys : List Byte, xs.Perm ys → checksum xs = checksum ys) ∧
  (∀ xs ys : List Byte,
    (checksum (xs ++ ys)).toNat = ((checksum xs).toNat + (checksum ys).toNat) % 65536) ∧
  (∀ (xs : List Byte) (n : Nat), checksum (xs ++ List.replicate n 0#8) = checksum xs) ∧
  (∀ xs : List Byte, xs.length ≤ 257 → (checksum xs).toNat = (xs.map BitVec.toNat).sum) ∧
  checksum (List.replicate 258 0xFF#8) = 0x00FE#16

/-- If the body of a frame whose field matches has any single bit flipped, the field matches in neither
reading (the spec's property, marked derived from R100 and R107). -/
def Obligations.BodyBitFlipIsNeverAccepted : Prop :=
  ∀ (body : List Byte) (f0 f1 : Byte) (j k : Nat), j < body.length → k < 8 →
    (matchesLe (checksum body) f0 f1 = true ∨ matchesBe (checksum body) f0 f1 = true) →
    matchesLe (checksum (flipBit body j k)) f0 f1 = false ∧
    matchesBe (checksum (flipBit body j k)) f0 f1 = false

/-- A single bit flipped in a field sent low byte first never gives a field that matches (the spec's
property, marked derived from R107). -/
def Obligations.FieldBitFlipIsNeverAccepted : Prop :=
  ∀ (body : List Byte) (j k : Nat) (f0 f1 : Byte), j < 2 → k < 8 →
    flipBit (checksumField body) j k = [f0, f1] →
    matchesLe (checksum body) f0 f1 = false ∧ matchesBe (checksum body) f0 f1 = false

/-- R110: the validator, on a frame of two bytes or more and on a shorter one, and where its results go when
a frame completes. -/
def Obligations.ValidatorResult : Prop :=
  ∀ minLen : Nat,
    (∀ (body : List Byte) (f0 f1 : Byte), ∃ v, validate minLen (body ++ [f0, f1]) = v ∧
      v.sum = checksum body ∧ v.field.toNat = f0.toNat + 256 * f1.toNat ∧
      (v.matchLe = true ↔ (checksum body).toNat = f0.toNat + 256 * f1.toNat) ∧
      (v.matchBe = true ↔ (checksum body).toNat = 256 * f0.toNat + f1.toNat) ∧
      (v.trunc = true ↔ body.length + 2 < minLen) ∧
      (v.valid = true ↔ (v.matchLe = true ∨ v.matchBe = true) ∧ v.trunc = false)) ∧
    (∀ buf : List Byte, buf.length < 2 →
      validate minLen buf = { Validation.clear with trunc := decide (buf.length < minLen) }) ∧
    (∀ s : State, s.rx.state = .inPacket → s.params.minLen = minLen →
      ∃ t, exec (.lineRx 0xAE#8) s = .next t ∧ t.rx.check = validate minLen s.rx.received ∧
        s.rx.received.length = s.rx.len)

/-! ### The transmit unit -/

/-- R71 and R130: the stuffing map, its reverse, and the stuffing of a sequence. -/
def Obligations.StuffingMap : Prop :=
  stuff1 0xA5#8 = [0xAA#8, 0x05#8] ∧ stuff1 0xAA#8 = [0xAA#8, 0x0A#8] ∧
  stuff1 0xAE#8 = [0xAA#8, 0x0E#8] ∧
  (∀ b : Byte, b ≠ 0xA5#8 → b ≠ 0xAA#8 → b ≠ 0xAE#8 → stuff1 b = [b]) ∧
  esc 0x05#8 = some 0xA5#8 ∧ esc 0x0A#8 = some 0xAA#8 ∧ esc 0x0E#8 = some 0xAE#8 ∧
  (∀ c : Byte, c ≠ 0x05#8 → c ≠ 0x0A#8 → c ≠ 0x0E#8 → esc c = none) ∧
  stuff [] = [] ∧ (∀ (b : Byte) (xs : List Byte), stuff (b :: xs) = stuff1 b ++ stuff xs)

/-- Items 1 to 4 of the properties of `stuff` (marked derived from R130 in spec/41_transmit.md). -/
def Obligations.StuffingLaws : Prop :=
  (∀ xs : List Byte, (stuff xs).length = xs.length + (xs.filter isSpecial).length) ∧
  (∀ xs : List Byte, 0xA5#8 ∉ stuff xs ∧ 0xAE#8 ∉ stuff xs) ∧
  (∀ (xs pre post : List Byte), stuff xs = pre ++ 0xAA#8 :: post →
    ∃ c rest, post = c :: rest ∧ (c = 0x05#8 ∨ c = 0x0A#8 ∨ c = 0x0E#8)) ∧
  (∀ xs ys : List Byte, stuff xs = stuff ys → xs = ys) ∧
  (∀ xs ys : List Byte, stuff (xs ++ ys) = stuff xs ++ stuff ys)

/-- Un-stuffing undoes stuffing, for all byte sequences (marked derived from R130 and R160). -/
def Obligations.UnstuffUndoesStuff : Prop :=
  ∀ xs : List Byte, unstuff (stuff xs) = some xs

/-- An escape byte followed by no escape code is always an error (marked derived from R160). -/
def Obligations.InvalidEscapeIsNeverPassed : Prop :=
  (∀ (pre post : List Byte) (c : Byte), c ≠ 0x05#8 → c ≠ 0x0A#8 → c ≠ 0x0E#8 →
    unstuff (pre ++ 0xAA#8 :: c :: post) = none) ∧
  (∀ pre : List Byte, unstuff (pre ++ [0xAA#8]) = none)

/-- R133, with the SEQUENCE error of R204. Without room the word is not accepted (R141); that the event then
answers the same state is the model's choice (notes/assumptions/3.md) and rests on no rule. -/
def Obligations.TxStartResult : Prop :=
  (∀ s : State, s.tx.state = .body →
    exec .txStart s = .next { s with cmdErr := firstError s.cmdErr .sequence }) ∧
  (∀ s : State, s.tx.state = .idle → s.tx.queue.length + 1 ≤ s.params.txqDepth →
    exec .txStart s = .next { s with
      tx := { state := .body, sum := 0#16, queue := s.tx.queue ++ [0xA5#8] } }) ∧
  (∀ s : State, s.tx.state = .idle → s.params.txqDepth < s.tx.queue.length + 1 →
    exec .txStart s = .next s) ∧
  decode (.command 0x01000000#32) = .ok .txStart ∧
  (∀ w : Word, w.extractLsb' 24 8 = 0x01#8 → w &&& 0x00FFFFFF#32 ≠ 0#32 →
    rejectedWith w .rsvdBits)

/-- R134: the stuffed byte is emitted, and the byte's own value is added to the sum, modulo 65536. Without
room the word is not accepted (R141); that the event then answers the same state is the model's choice
(notes/assumptions/3.md) and rests on no rule. -/
def Obligations.TxDataResult : Prop :=
  (∀ (s : State) (b : Byte), s.tx.state = .idle →
    exec (.txData b) s = .next { s with cmdErr := firstError s.cmdErr .sequence }) ∧
  (∀ (s : State) (b : Byte), s.tx.state = .body →
    s.tx.queue.length + (stuff1 b).length ≤ s.params.txqDepth →
    ∃ t, exec (.txData b) s = .next t ∧ t.tx.state = .body ∧
      t.tx.sum.toNat = (s.tx.sum.toNat + b.toNat) % 65536 ∧
      t.tx.queue = s.tx.queue ++ stuff1 b ∧ t = { s with tx := t.tx }) ∧
  (∀ (s : State) (b : Byte), s.tx.state = .body →
    s.params.txqDepth < s.tx.queue.length + (stuff1 b).length → exec (.txData b) s = .next s) ∧
  (∀ b : Byte, decode (.command (0x02000000#32 ||| b.setWidth 32)) = .ok (.txData b)) ∧
  (∀ w : Word, w.extractLsb' 24 8 = 0x02#8 → w &&& 0x00FFFF00#32 ≠ 0#32 →
    rejectedWith w .rsvdBits)

/-- R135: the checksum field, low byte first and stuffed, then the end delimiter; `tx_sum` stays. `lo` and
`hi` are the sum's two bytes. Without room the word is not accepted (R141); that the event then answers the
same state is the model's choice (notes/assumptions/3.md) and rests on no rule. -/
def Obligations.TxEndResult : Prop :=
  (∀ s : State, s.tx.state = .idle →
    exec .txEnd s = .next { s with cmdErr := firstError s.cmdErr .sequence }) ∧
  (∀ (s : State) (lo hi : Byte), s.tx.state = .body →
    s.tx.sum.toNat = lo.toNat + 256 * hi.toNat →
    (s.tx.queue.length + (stuff1 lo).length + (stuff1 hi).length + 1 ≤ s.params.txqDepth →
      exec .txEnd s = .next { s with tx := {
        state := .idle, sum := s.tx.sum
        queue := s.tx.queue ++ (stuff1 lo ++ stuff1 hi ++ [0xAE#8]) } }) ∧
    (s.params.txqDepth < s.tx.queue.length + (stuff1 lo).length + (stuff1 hi).length + 1 →
      exec .txEnd s = .next s)) ∧
  decode (.command 0x03000000#32) = .ok .txEnd ∧
  (∀ w : Word, w.extractLsb' 24 8 = 0x03#8 → w &&& 0x00FFFFFF#32 ≠ 0#32 →
    rejectedWith w .rsvdBits)

/-- R141: a TX word at the head of the port is taken from it exactly when its bytes fit. Otherwise it
waits, with the words behind it; that the waiting is a step that answers a next state and uses up the port's
turn is the model's choice (notes/assumptions/3.md) and rests on no rule. An empty queue has room for every
command. -/
def Obligations.TxWordWaitsForRoom : Prop :=
  ∀ (s : State) (w : Word) (rest : List Word) (later : List Turn) (i : Instr),
    s.env.commands = w :: rest → s.env.schedule = .agent .command :: later →
    decode (.command w) = .ok i → isTxCommand i = true →
    s.tx.queue.length ≤ s.params.txqDepth →
    (s.tx.queue.length + (out i s).length ≤ s.params.txqDepth →
      ∃ t, step s = .next t ∧ t.env.commands = rest ∧ t.env.schedule = later ∧
        t.tx.queue = s.tx.queue ++ out i s) ∧
    (s.params.txqDepth < s.tx.queue.length + (out i s).length →
      step s = .next { s with env := { s.env with schedule := later } }) ∧
    (s.params.wf = true → s.tx.queue = [] →
      s.tx.queue.length + (out i s).length ≤ s.params.txqDepth)

/-- A waiting word never waits for ever while the line keeps taking bytes (spec/70_reset_and_hazards.md,
section 3): once the line has taken what `txq` holds, any legal word at the head of the port is accepted. -/
def Obligations.WaitingWordIsAcceptedOnceTheLineDrains : Prop :=
  ∀ (s : State) (w : Word) (rest : List Word) (later : List Turn) (i : Instr),
    s.params.wf = true → s.env.commands = w :: rest → decode (.command w) = .ok i →
    s.env.schedule =
      List.replicate s.tx.queue.length (.agent .lineTx) ++ .agent .command :: later →
    ∃ u t, run s.tx.queue.length s = .next u ∧
      u = { s with
        tx := { s.tx with queue := [] }
        env := { s.env with
          lineOut := s.env.lineOut ++ s.tx.queue, schedule := .agent .command :: later } } ∧
      run (s.tx.queue.length + 1) s = .next t ∧
      t.env.commands = rest ∧ t.env.schedule = later

/-- How many line bytes an event emits (the table the spec derives from R133 to R135), and that they are
what it appends to the line bytes so far: nothing is reordered, dropped, duplicated or inserted
(spec/41_transmit.md, section 3), by any event but reset. That an event that is not enabled has a next
state is the model's own choice (notes/assumptions/3.md). -/
def Obligations.EmittedBytesKeepTheirOrder : Prop :=
  ∀ (i : Instr) (s : State),
    (out i s).length ≤ 5 ∧
    (isTxCommand i = false → out i s = []) ∧
    (i = .txStart → s.tx.state = .idle → (out i s).length = 1) ∧
    (∀ b, i = .txData b → s.tx.state = .body →
      (out i s).length = if isSpecial b then 2 else 1) ∧
    (i = .txEnd → s.tx.state = .body → 3 ≤ (out i s).length) ∧
    (∀ t, i ≠ .reset → exec i s = .next t →
      t.env.lineOut ++ t.tx.queue =
        s.env.lineOut ++ s.tx.queue ++ (if enabled i s then out i s else []))

/-- R140: the line transmitter takes the head of `txq`, and when transmission is complete, said of `txq`
itself (`StatusFields` says that TXQ_COUNT is its length). With `txq` empty the event has no step; that it
answers the same state is the model's choice (notes/assumptions/3.md), and so is the record of the line
(notes/assumptions/8.md). -/
def Obligations.LineTxTakesTheHead : Prop :=
  (∀ (s : State) (b : Byte) (rest : List Byte), s.tx.queue = b :: rest →
    exec .lineTx s = .next { s with
      tx := { s.tx with queue := rest }
      env := { s.env with lineOut := s.env.lineOut ++ [b] } }) ∧
  (∀ s : State, s.tx.queue = [] → exec .lineTx s = .next s) ∧
  (∀ s : State, transmitComplete s = true ↔
    (memRead s 0x0000#16).extractLsb' 0 1 = 0#1 ∧ s.tx.queue = [])

/-- The equivalence with the source's `write_frame` (marked derived in spec/41_transmit.md, section 2): if
the TX commands among the events are TX_START, a TX_DATA for each body byte and TX_END, each accepted in
its turn, then the bytes appended to the line are exactly the frame of the body, whatever other events but
reset are interleaved. That an interleaved event that is not enabled has a next state, where the spec says it
has no step, is the model's own choice (notes/assumptions/3.md). -/
def Obligations.TransmittedBytesAreTheFrame : Prop :=
  ∀ (s : State) (body : List Byte) (is : List Instr),
    s.tx.state = .idle → is.filter isTxCommand = txFrame body → .reset ∉ is →
    (∀ (a b : List Instr) (i : Instr) (t : State), is = a ++ i :: b → isTxCommand i = true →
      execAll a s = .next t → enabled i t = true) →
    ∃ t, execAll is s = .next t ∧ t.tx.state = .idle ∧ t.tx.sum = checksum body ∧
      t.env.lineOut ++ t.tx.queue = s.env.lineOut ++ s.tx.queue ++ frame body

/-! ### The receive unit -/

/-- R165: fresh state in IDLE from every state; `rx_buf` is not written. -/
def Obligations.RxStartResult : Prop :=
  (∀ s : State, exec .rxStart s = .next { s with rx := {
    state := .idle, result := .none, buf := s.rx.buf, len := 0
    check := { sum := 0#16, field := 0#16, matchLe := false, matchBe := false,
               valid := false, trunc := false } } }) ∧
  decode (.command 0x10000000#32) = .ok .rxStart ∧
  (∀ w : Word, w.extractLsb' 24 8 = 0x10#8 → w &&& 0x00FFFFFF#32 ≠ 0#32 →
    rejectedWith w .rsvdBits)

/-- R166: a receive in progress ends with ABORTED and keeps its partial frame; else there is no effect. -/
def Obligations.RxAbortResult : Prop :=
  (∀ s : State, s.rx.state ≠ .stopped →
    exec .rxAbort s = .next { s with rx := { s.rx with state := .stopped, result := .aborted } }) ∧
  (∀ s : State, s.rx.state = .stopped → exec .rxAbort s = .next s) ∧
  decode (.command 0x11000000#32) = .ok .rxAbort ∧
  (∀ w : Word, w.extractLsb' 24 8 = 0x11#8 → w &&& 0x00FFFFFF#32 ≠ 0#32 →
    rejectedWith w .rsvdBits)

/-- R184: a receive in progress ends with TIMEOUT and keeps its partial frame. In STOPPED the event is ignored
and has no step; that it answers the same state is the model's choice (notes/assumptions/3.md). -/
def Obligations.RxTimeoutResult : Prop :=
  (∀ s : State, s.rx.state ≠ .stopped →
    exec .rxTimeout s = .next { s with rx := { s.rx with state := .stopped, result := .timeout } }) ∧
  (∀ s : State, s.rx.state = .stopped → exec .rxTimeout s = .next s)

/-- R170 and R181: while a receive is in progress the first byte the line offers is accepted and consumed
once; in STOPPED it is not, and it stays with the line receiver, with the bytes behind it, which is the
spec's choice for its model (notes/assumptions/10.md). In STOPPED the event has no step; that a step answers
a next state there and uses up the turn is the model's choice (notes/assumptions/3.md). -/
def Obligations.LineByteIsAcceptedOnlyWhileReceiving : Prop :=
  ∀ (s : State) (b : Byte) (rest : List Byte) (later : List Turn),
    s.env.lineIn = b :: rest → s.env.schedule = .agent .lineRx :: later →
    (s.rx.state ≠ .stopped → ∃ t,
      step s = exec (.lineRx b) { s with env := { s.env with lineIn := rest, schedule := later } } ∧
      step s = .next t ∧ t.env.lineIn = rest) ∧
    (s.rx.state = .stopped →
      exec (.lineRx b) s = .next s ∧
      step s = .next { s with env := { s.env with schedule := later } })

/-- R171: in IDLE every byte but the start delimiter is discarded. -/
def Obligations.IdleHuntsForTheStartDelimiter : Prop :=
  ∀ s : State, s.rx.state = .idle →
    exec (.lineRx 0xA5#8) s = .next { s with rx := { s.rx with state := .inPacket, len := 0 } } ∧
    (∀ b : Byte, b ≠ 0xA5#8 → exec (.lineRx b) s = .next s)

/-- R172, R173 and R174, with the completion of R180 and the append of R177. -/
def Obligations.InPacketLineByte : Prop :=
  ∀ s : State, s.rx.state = .inPacket →
    exec (.lineRx 0xAA#8) s = .next { s with rx := { s.rx with state := .escaped } } ∧
    exec (.lineRx 0xAE#8) s = .next { s with rx := { s.rx with
      state := .stopped, result := .frame
      check := validate s.params.minLen s.rx.received } } ∧
    (∀ b : Byte, b ≠ 0xAA#8 → b ≠ 0xAE#8 →
      (s.params.rxCap = some s.rx.len →
        exec (.lineRx b) s = .next { s with rx := { s.rx with state := .stopped, result := .overflow } }) ∧
      (s.params.rxCap ≠ some s.rx.len → ∃ t, exec (.lineRx b) s = .next t ∧
        t = { s with rx := { s.rx with buf := t.rx.buf, len := s.rx.len + 1 } } ∧
        t.rx.buf.read? s.rx.len = some b ∧
        (∀ i, i ≠ s.rx.len → t.rx.buf.read? i = s.rx.buf.read? i)))

/-- R175 and R176, with the append of R177: an escape code stands for its special byte; any other byte ends
the receive and is not stored. -/
def Obligations.EscapedLineByte : Prop :=
  ∀ s : State, s.rx.state = .escaped →
    (∀ c v : Byte, (c = 0x05#8 ∧ v = 0xA5#8) ∨ (c = 0x0A#8 ∧ v = 0xAA#8) ∨ (c = 0x0E#8 ∧ v = 0xAE#8) →
      (s.params.rxCap = some s.rx.len →
        exec (.lineRx c) s = .next { s with rx := { s.rx with state := .stopped, result := .overflow } }) ∧
      (s.params.rxCap ≠ some s.rx.len → ∃ t, exec (.lineRx c) s = .next t ∧
        t = { s with rx := { s.rx with state := .inPacket, buf := t.rx.buf, len := s.rx.len + 1 } } ∧
        t.rx.buf.read? s.rx.len = some v ∧
        (∀ i, i ≠ s.rx.len → t.rx.buf.read? i = s.rx.buf.read? i))) ∧
    (∀ c : Byte, c ≠ 0x05#8 → c ≠ 0x0A#8 → c ≠ 0x0E#8 →
      exec (.lineRx c) s =
        .next { s with rx := { s.rx with state := .stopped, result := .invalidEscape } })

/-- The relation of the streaming machine to `unstuff` (marked derived in spec/42_receive.md, section 4),
over steps: the line offers noise, a start delimiter, a stuffed region, an end delimiter and more bytes,
and has a turn for each byte. A finite RX_CAP that the frame fits in is admitted too. The turns after the
receive has ended are LINE_RX in STOPPED, which has no step: that the run goes through them, answers a next
state and uses them up is the model's choice (notes/assumptions/3.md), and that the bytes offered then stay
with the line receiver is the spec's choice for its model (notes/assumptions/10.md). -/
def Obligations.ReceivedStreamIsUnstuffed : Prop :=
  ∀ (s : State) (junk ys rest : List Byte) (later : List Turn),
    s.rx.state = .idle → 0xA5#8 ∉ junk → 0xAE#8 ∉ ys →
    s.env.lineIn = junk ++ 0xA5#8 :: (ys ++ 0xAE#8 :: rest) →
    s.env.schedule = List.replicate s.env.lineIn.length (.agent .lineRx) ++ later →
    (∀ zs, unstuff ys = some zs → (∀ n, s.params.rxCap = some n → zs.length ≤ n) →
      ∃ t, run s.env.lineIn.length s = .next t ∧
        t.rx.state = .stopped ∧ t.rx.result = .frame ∧ t.rx.received = zs ∧
        t.rx.check = validate s.params.minLen zs ∧
        t = { s with rx := t.rx, env := { s.env with lineIn := rest, schedule := later } }) ∧
    (unstuff ys = none → s.params.rxCap = none →
      ∃ t left, run s.env.lineIn.length s = .next t ∧
        t.rx.state = .stopped ∧ t.rx.result = .invalidEscape ∧ left <:+ ys ∧
        (t.env.lineIn = left ++ 0xAE#8 :: rest ∨ t.env.lineIn = rest))

/-- What the transmitter sends, the receiver recovers and validates: receiving the frame of any body ends in
FRAME with the body and its field in the buffer (marked derived in spec/42_receive.md, section 4). -/
def Obligations.ReceivedFrameIsTheBody : Prop :=
  ∀ (s : State) (body rest : List Byte) (later : List Turn),
    s.rx.state = .idle → s.env.lineIn = frame body ++ rest →
    s.env.schedule = List.replicate (frame body).length (.agent .lineRx) ++ later →
    (∀ n, s.params.rxCap = some n → body.length + 2 ≤ n) →
    ∃ t, run (frame body).length s = .next t ∧
      t.rx.state = .stopped ∧ t.rx.result = .frame ∧
      t.rx.received = body ++ checksumField body ∧
      t.rx.check.sum = checksum body ∧ t.rx.check.matchLe = true ∧
      (t.rx.check.valid = true ↔ s.params.minLen ≤ body.length + 2) ∧
      t.env.lineIn = rest ∧ t.env.schedule = later

/-- R186: an outcome is kept until the next RX_START or reset, whatever the step. -/
def Obligations.ReceiveOutcomeIsKept : Prop :=
  ∀ s t : State, s.rx.state = .stopped → step s = .next t → t.rx ≠ s.rx →
    ∃ g ev, nextGrant s.env.schedule = some g ∧ presented g.agent s.env = some ev ∧
      (decode ev = .ok .rxStart ∨ decode ev = .ok .reset)

/-- R34: `rx_irq` is the level `rx_result != NONE`, readable as STATUS.RX_DONE; it rises when a receive ends
and falls only at RX_START or reset. -/
def Obligations.RxIrqLevel : Prop :=
  (∀ s : State, (rxIrq s.rx = true ↔ s.rx.result ≠ .none) ∧
    ((memRead s 0x0000#16).extractLsb' 28 1 = 1#1 ↔ s.rx.result ≠ .none)) ∧
  (∀ (i : Instr) (s t : State), exec i s = .next t →
    (rxIrq s.rx = true → rxIrq t.rx = false → i = .rxStart ∨ i = .reset) ∧
    (s.rx.state ≠ .stopped → t.rx.state = .stopped → i ≠ .reset → rxIrq t.rx = true)) ∧
  (∀ s : State, ∃ t, exec .rxStart s = .next t ∧ rxIrq t.rx = false) ∧
  (∀ s : State, ∃ t, exec .reset s = .next t ∧ rxIrq t.rx = false)

/-! ### The read space -/

/-- R206 and R55: a read returns the word at `addr & 0xFFFC` and changes no state of the block. What changes
is the model's own record of what the port returned and of the free bytes drawn
(notes/assumptions/4.md and 8.md). -/
def Obligations.ReadChangesNoState : Prop :=
  ∀ (s : State) (a : Half), ∃ d, exec (.read a) s = .next { s with env := { s.env with
    readOut := s.env.readOut ++ [memRead s (a &&& 0xFFFC#16)], draws := d } }

/-- R61: a misaligned address reads the aligned word that contains it. -/
def Obligations.MisalignedReadIsTheAlignedWord : Prop :=
  ∀ (s : State) (a : Half) (k j : Nat), j < 4 → a.toNat = 4 * k + j →
    memRead s a = memRead s (BitVec.ofNat 16 (4 * k))

/-- R52: every field of STATUS, and its reserved bits. -/
def Obligations.StatusFields : Prop :=
  ∀ s : State, s.tx.queue.length ≤ 15 → ∃ w, memRead s 0x0000#16 = w ∧
    w.extractLsb' 0 1 = (match s.tx.state with | .idle => 0#1 | .body => 1#1) ∧
    w.extractLsb' 1 3 = 0#3 ∧
    (w.extractLsb' 4 4).toNat = s.tx.queue.length ∧
    w.extractLsb' 8 2 = (match s.rx.state with
      | .stopped => 0#2 | .idle => 1#2 | .inPacket => 2#2 | .escaped => 3#2) ∧
    w.extractLsb' 10 2 = 0#2 ∧
    w.extractLsb' 12 3 = (match s.rx.result with
      | .none => 0#3 | .frame => 1#3 | .invalidEscape => 2#3
      | .timeout => 3#3 | .overflow => 4#3 | .aborted => 5#3) ∧
    w.extractLsb' 15 1 = 0#1 ∧
    w.getLsbD 16 = s.rx.check.matchLe ∧ w.getLsbD 17 = s.rx.check.matchBe ∧
    w.getLsbD 18 = s.rx.check.valid ∧ w.getLsbD 19 = s.rx.check.trunc ∧
    w.getLsbD 20 = s.ck.matchLe ∧ w.getLsbD 21 = s.ck.matchBe ∧
    w.extractLsb' 22 2 = 0#2 ∧
    w.extractLsb' 24 2 = (match s.cmdErr with
      | .none => 0#2 | .unknownOp => 1#2 | .rsvdBits => 2#2 | .sequence => 3#2) ∧
    w.extractLsb' 26 2 = 0#2 ∧
    (w.getLsbD 28 = true ↔ s.rx.result ≠ .none) ∧
    w.extractLsb' 29 3 = 0#3

/-- R53, R54, R56, R57 and R58: the other registers, for values their fields hold. -/
def Obligations.PlainRegisters : Prop :=
  ∀ s : State, s.rx.len < 65536 → s.params.wf = true →
    (memRead s 0x0004#16).toNat = s.rx.len ∧
    (memRead s 0x0008#16).toNat = s.rx.check.sum.toNat + 65536 * s.rx.check.field.toNat ∧
    (memRead s 0x000C#16).toNat = s.tx.sum.toNat ∧
    (memRead s 0x0010#16).toNat = s.ck.acc.toNat ∧
    (∀ n, s.params.rxCap = some n →
      (memRead s 0x0014#16).toNat = n + 65536 * s.params.txqDepth + 16777216 * s.params.minLen) ∧
    (s.params.rxCap = none →
      (memRead s 0x0014#16).toNat = 65536 * s.params.txqDepth + 16777216 * s.params.minLen)

/-- R59: the lanes of RX_DATA. Of the lane of an index from `rx_len` up to RX_CAP the rule says only that it
is an unspecified byte, so nothing is said of its value here. -/
def Obligations.RxDataLanes : Prop :=
  ∀ (s : State) (k j : Nat), 0x1000 + 4 * k ≤ 0xFFFC → j < 4 →
    ∃ lane, (memRead s (BitVec.ofNat 16 (0x1000 + 4 * k))).extractLsb' (8 * j) 8 = lane ∧
      (4 * k + j < s.rx.len → (∀ n, s.params.rxCap = some n → 4 * k + j < n) →
        ∀ v, s.rx.buf.read? (4 * k + j) = some v → lane = v) ∧
      (∀ n, s.params.rxCap = some n → n ≤ 4 * k + j → lane = 0#8)

/-- R51: the reserved addresses read 0. -/
def Obligations.ReservedAddressesReadZero : Prop :=
  ∀ (s : State) (a : Half),
    (0x0018 ≤ a.toNat → a.toNat ≤ 0x0FFF → memRead s a = 0#32) ∧
    (∀ n, s.params.rxCap = some n → 0x1000 + 4 * ((n + 3) / 4) ≤ a.toNat → memRead s a = 0#32)

/-- Two states that differ only in the stale bytes of `rx_buf`, in the draws and in what surrounds the block
read alike, but for RX_DATA bytes at indices from `rx_len` up (spec/20_memory.md, section 1); and those
show the draws alone, never a stale byte (the model's own form of the free draw, notes/assumptions/4.md). -/
def Obligations.StaleBytesAreNotSeen : Prop :=
  ∀ (s t : State) (a : Half),
    t = { s with rx := { s.rx with buf := t.rx.buf }, env := t.env } →
    (∀ i, i < s.rx.len → t.rx.buf.read? i = s.rx.buf.read? i) →
    (a.toNat < 0x1000 → memRead t a = memRead s a) ∧
    (0x1000 ≤ a.toNat → ∀ j, j < 4 → 4 * ((a.toNat - 0x1000) / 4) + j < s.rx.len →
      (memRead t a).extractLsb' (8 * j) 8 = (memRead s a).extractLsb' (8 * j) 8) ∧
    (t.env.draws = s.env.draws → memRead t a = memRead s a)

/-! ### Reset and the whole machine -/

/-- R250: every element but `rx_buf` takes its reset value; a waiting word and an offered byte are not
consumed; the registers read 0. The spec says that reset does not write `rx_buf` and that its contents are
then unspecified; that its cells are as they were is the model's choice (notes/assumptions/5.md). -/
def Obligations.ResetResult : Prop :=
  ∀ s : State, ∃ t, exec .reset s = .next t ∧
    t = { s with
      tx := { state := .idle, sum := 0#16, queue := [] }
      rx := { state := .stopped, result := .none, buf := s.rx.buf, len := 0
              check := { sum := 0#16, field := 0#16, matchLe := false, matchBe := false,
                         valid := false, trunc := false } }
      ck := { acc := 0#16, matchLe := false, matchBe := false }
      cmdErr := .none } ∧
    memRead t 0x0000#16 = 0#32 ∧ memRead t 0x0004#16 = 0#32 ∧ memRead t 0x0008#16 = 0#32 ∧
    memRead t 0x000C#16 = 0#32 ∧ memRead t 0x0010#16 = 0#32 ∧ rxIrq t.rx = false

/-- The state after reset meets the invariant. -/
def Obligations.ResetMeetsTheInvariant : Prop := State.reset.Inv

/-- Every step keeps the invariant (items 1 to 5 of the invariants of spec/10_state.md, marked derived
there, and the canonical form of `rx_buf`), from every state that meets it. -/
def Obligations.StepKeepsTheInvariant : Prop :=
  ∀ s t : State, s.Inv → step s = .next t → t.Inv

/-- What the host may conclude from an outcome (spec/60_exceptions.md, section 2, and validity before use in
spec/70_reset_and_hazards.md, section 3), in every state that meets the invariant: a frame is usable
exactly when it is a valid Response; only TIMEOUT and ABORTED are retried; without FRAME nothing is
reported of a frame. That a truncated or mismatching FRAME counts as the error kind, and not as a returned
Response with `valid = false`, is the model's choice (notes/assumptions/22.md). -/
def Obligations.OutcomesMapToTheSourceKinds : Prop :=
  ∀ s : State, s.Inv →
    (frameUsable s = true ↔ sourceKind s.rx = some .response) ∧
    (s.rx.check.valid = true → frameUsable s = true) ∧
    ((sourceKind s.rx).bind SourceKind.retried = some true ↔
      s.rx.result = .timeout ∨ s.rx.result = .aborted) ∧
    (sourceKind s.rx = some .checksumMismatch ↔ s.rx.result = .frame ∧
      s.rx.check.trunc = false ∧ s.rx.check.matchLe = false ∧ s.rx.check.matchBe = false) ∧
    (s.rx.result ≠ .frame → memRead s 0x0008#16 = 0#32 ∧ (memRead s 0x0000#16).extractLsb' 16 4 = 0#4)

/-- R67: the three units are independent, and only the command port writes `cmd_err` (reset apart, R250). -/
def Obligations.UnitsAreIndependent : Prop :=
  ∀ (i : Instr) (s t : State), exec i s = .next t → i ≠ .reset →
    (touchesTx i = false → t.tx = s.tx) ∧
    (touchesRx i = false → t.rx = s.rx) ∧
    (isCkCommand i = false → t.ck = s.ck) ∧
    ((∃ b, i = .lineRx b) ∨ i = .lineTx ∨ (∃ a, i = .read a) ∨ i = .rxTimeout →
      t.cmdErr = s.cmdErr)
end

