-- ==== Sys2Proof/Laws/State.lean ====
section
/-! SUPPORT. One lemma per field per update of the state and of its units. -/

namespace Sys2Proof.Machine

@[simp] theorem State.withTx_params (s : State) (u : TxUnit) : (s.withTx u).params = s.params := rfl
@[simp] theorem State.withTx_tx (s : State) (u : TxUnit) : (s.withTx u).tx = u := rfl
@[simp] theorem State.withTx_rx (s : State) (u : TxUnit) : (s.withTx u).rx = s.rx := rfl
@[simp] theorem State.withTx_ck (s : State) (u : TxUnit) : (s.withTx u).ck = s.ck := rfl
@[simp] theorem State.withTx_cmdErr (s : State) (u : TxUnit) : (s.withTx u).cmdErr = s.cmdErr := rfl
@[simp] theorem State.withTx_env (s : State) (u : TxUnit) : (s.withTx u).env = s.env := rfl

@[simp] theorem State.withRx_params (s : State) (u : RxUnit) : (s.withRx u).params = s.params := rfl
@[simp] theorem State.withRx_tx (s : State) (u : RxUnit) : (s.withRx u).tx = s.tx := rfl
@[simp] theorem State.withRx_rx (s : State) (u : RxUnit) : (s.withRx u).rx = u := rfl
@[simp] theorem State.withRx_ck (s : State) (u : RxUnit) : (s.withRx u).ck = s.ck := rfl
@[simp] theorem State.withRx_cmdErr (s : State) (u : RxUnit) : (s.withRx u).cmdErr = s.cmdErr := rfl
@[simp] theorem State.withRx_env (s : State) (u : RxUnit) : (s.withRx u).env = s.env := rfl

@[simp] theorem State.withCk_params (s : State) (u : CkUnit) : (s.withCk u).params = s.params := rfl
@[simp] theorem State.withCk_tx (s : State) (u : CkUnit) : (s.withCk u).tx = s.tx := rfl
@[simp] theorem State.withCk_rx (s : State) (u : CkUnit) : (s.withCk u).rx = s.rx := rfl
@[simp] theorem State.withCk_ck (s : State) (u : CkUnit) : (s.withCk u).ck = u := rfl
@[simp] theorem State.withCk_cmdErr (s : State) (u : CkUnit) : (s.withCk u).cmdErr = s.cmdErr := rfl
@[simp] theorem State.withCk_env (s : State) (u : CkUnit) : (s.withCk u).env = s.env := rfl

@[simp] theorem State.withCmdErr_params (s : State) (u : CmdErr) : (s.withCmdErr u).params = s.params := rfl
@[simp] theorem State.withCmdErr_tx (s : State) (u : CmdErr) : (s.withCmdErr u).tx = s.tx := rfl
@[simp] theorem State.withCmdErr_rx (s : State) (u : CmdErr) : (s.withCmdErr u).rx = s.rx := rfl
@[simp] theorem State.withCmdErr_ck (s : State) (u : CmdErr) : (s.withCmdErr u).ck = s.ck := rfl
@[simp] theorem State.withCmdErr_cmdErr (s : State) (u : CmdErr) : (s.withCmdErr u).cmdErr = u := rfl
@[simp] theorem State.withCmdErr_env (s : State) (u : CmdErr) : (s.withCmdErr u).env = s.env := rfl

@[simp] theorem State.withEnv_params (s : State) (u : Env) : (s.withEnv u).params = s.params := rfl
@[simp] theorem State.withEnv_tx (s : State) (u : Env) : (s.withEnv u).tx = s.tx := rfl
@[simp] theorem State.withEnv_rx (s : State) (u : Env) : (s.withEnv u).rx = s.rx := rfl
@[simp] theorem State.withEnv_ck (s : State) (u : Env) : (s.withEnv u).ck = s.ck := rfl
@[simp] theorem State.withEnv_cmdErr (s : State) (u : Env) : (s.withEnv u).cmdErr = s.cmdErr := rfl
@[simp] theorem State.withEnv_env (s : State) (u : Env) : (s.withEnv u).env = u := rfl

@[simp] theorem State.withTx_withTx (s : State) (u v : TxUnit) : (s.withTx u).withTx v = s.withTx v := rfl
@[simp] theorem State.withTx_self (s : State) : s.withTx s.tx = s := rfl
@[simp] theorem State.withRx_withRx (s : State) (u v : RxUnit) : (s.withRx u).withRx v = s.withRx v := rfl
@[simp] theorem State.withRx_self (s : State) : s.withRx s.rx = s := rfl
@[simp] theorem State.withCk_withCk (s : State) (u v : CkUnit) : (s.withCk u).withCk v = s.withCk v := rfl
@[simp] theorem State.withCk_self (s : State) : s.withCk s.ck = s := rfl
@[simp] theorem State.withCmdErr_withCmdErr (s : State) (u v : CmdErr) : (s.withCmdErr u).withCmdErr v = s.withCmdErr v := rfl
@[simp] theorem State.withCmdErr_self (s : State) : s.withCmdErr s.cmdErr = s := rfl
@[simp] theorem State.withEnv_withEnv (s : State) (u v : Env) : (s.withEnv u).withEnv v = s.withEnv v := rfl
@[simp] theorem State.withEnv_self (s : State) : s.withEnv s.env = s := rfl

@[simp] theorem TxUnit.emit_state (u : TxUnit) (xs : List Byte) : (u.emit xs).state = u.state := rfl
@[simp] theorem TxUnit.emit_sum (u : TxUnit) (xs : List Byte) : (u.emit xs).sum = u.sum := rfl
@[simp] theorem TxUnit.emit_queue (u : TxUnit) (xs : List Byte) : (u.emit xs).queue = u.queue ++ xs := rfl

@[simp] theorem RxUnit.finish_state (rx : RxUnit) (r : RxResult) : (rx.finish r).state = .stopped := rfl
@[simp] theorem RxUnit.finish_result (rx : RxUnit) (r : RxResult) : (rx.finish r).result = r := rfl
@[simp] theorem RxUnit.finish_buf (rx : RxUnit) (r : RxResult) : (rx.finish r).buf = rx.buf := rfl
@[simp] theorem RxUnit.finish_len (rx : RxUnit) (r : RxResult) : (rx.finish r).len = rx.len := rfl
@[simp] theorem RxUnit.finish_check (rx : RxUnit) (r : RxResult) : (rx.finish r).check = rx.check := rfl

@[simp] theorem RxUnit.complete_state (rx : RxUnit) (p : Config.Params) :
    (rx.complete p).state = .stopped := rfl
@[simp] theorem RxUnit.complete_result (rx : RxUnit) (p : Config.Params) :
    (rx.complete p).result = .frame := rfl
@[simp] theorem RxUnit.complete_buf (rx : RxUnit) (p : Config.Params) :
    (rx.complete p).buf = rx.buf := rfl
@[simp] theorem RxUnit.complete_len (rx : RxUnit) (p : Config.Params) :
    (rx.complete p).len = rx.len := rfl
@[simp] theorem RxUnit.complete_check (rx : RxUnit) (p : Config.Params) :
    (rx.complete p).check = validate p.minLen rx.received := rfl

@[simp] theorem State.resetBlock_params (s : State) : s.resetBlock.params = s.params := rfl
@[simp] theorem State.resetBlock_tx (s : State) : s.resetBlock.tx = TxUnit.reset := rfl
@[simp] theorem State.resetBlock_rx (s : State) : s.resetBlock.rx = RxUnit.reset s.rx.buf := rfl
@[simp] theorem State.resetBlock_ck (s : State) : s.resetBlock.ck = CkUnit.reset := rfl
@[simp] theorem State.resetBlock_cmdErr (s : State) : s.resetBlock.cmdErr = .none := rfl
@[simp] theorem State.resetBlock_env (s : State) : s.resetBlock.env = s.env := rfl

@[simp] theorem State.afterTurn_params (s : State) (g : Grant) (acc : Bool) :
    (s.afterTurn g acc).params = s.params := by cases acc <;> rfl
@[simp] theorem State.afterTurn_tx (s : State) (g : Grant) (acc : Bool) :
    (s.afterTurn g acc).tx = s.tx := by cases acc <;> rfl
@[simp] theorem State.afterTurn_rx (s : State) (g : Grant) (acc : Bool) :
    (s.afterTurn g acc).rx = s.rx := by cases acc <;> rfl
@[simp] theorem State.afterTurn_ck (s : State) (g : Grant) (acc : Bool) :
    (s.afterTurn g acc).ck = s.ck := by cases acc <;> rfl
@[simp] theorem State.afterTurn_cmdErr (s : State) (g : Grant) (acc : Bool) :
    (s.afterTurn g acc).cmdErr = s.cmdErr := by cases acc <;> rfl

@[simp] theorem Env.consume_lineOut (v : Env) (a : Agent) : (v.consume a).lineOut = v.lineOut := by cases a <;> rfl
@[simp] theorem Env.consume_readOut (v : Env) (a : Agent) : (v.consume a).readOut = v.readOut := by cases a <;> rfl
@[simp] theorem Env.consume_draws (v : Env) (a : Agent) : (v.consume a).draws = v.draws := by cases a <;> rfl
@[simp] theorem Env.consume_schedule (v : Env) (a : Agent) : (v.consume a).schedule = v.schedule := by cases a <;> rfl

end Sys2Proof.Machine
end

