-- ==== Sys2Proof/Laws/Memory.lean ====
section
/-! SUPPORT. `rx_buf`: a read after a write, and every operation keeps the canonical form. -/

namespace Sys2Proof.Machine

@[simp] theorem Memory.read?_nil (i : Nat) : Memory.read? [] i = none := rfl

theorem Memory.read?_cons (a : Nat) (v : Byte) (m : Memory) (i : Nat) :
    Memory.read? ((a, v) :: m) i = if i = a then some v else Memory.read? m i := rfl

/-- A read after a write: the byte written, and every other cell as before. -/
theorem Memory.read?_write (m : Memory) (i j : Nat) (v : Byte) :
    (m.write i v).read? j = if j = i then some v else m.read? j := by
  induction m with
  | nil => rfl
  | cons c rest ih =>
    obtain ⟨a, w⟩ := c
    unfold Memory.write
    split
    · rfl
    · split
      · next h => subst h; simp only [read?_cons]; split <;> rfl
      · next h1 h2 =>
        simp only [read?_cons, ih]
        split
        · next h3 => subst h3; rw [if_neg (fun h => h2 h.symm)]
        · rfl

@[simp] theorem Memory.read?_write_same (m : Memory) (i : Nat) (v : Byte) :
    (m.write i v).read? i = some v := by simp [read?_write]

theorem Memory.read?_write_other (m : Memory) {i j : Nat} (v : Byte) (h : j ≠ i) :
    (m.write i v).read? j = m.read? j := by simp [read?_write, h]

/-- Every cell of a written memory is the new one or an old one. -/
theorem Memory.mem_write {m : Memory} {i : Nat} {v : Byte} {c : Host.Cell} (h : c ∈ m.write i v) :
    c = (i, v) ∨ c ∈ m := by
  induction m with
  | nil => simpa [Memory.write] using h
  | cons d rest ih =>
    obtain ⟨a, w⟩ := d
    unfold Memory.write at h
    split at h
    · simpa using h
    · split at h
      · rcases List.mem_cons.mp h with h | h
        · exact .inl h
        · exact .inr (List.mem_cons_of_mem _ h)
      · rcases List.mem_cons.mp h with h | h
        · exact .inr (h ▸ List.mem_cons_self ..)
        · exact (ih h).imp_right (List.mem_cons_of_mem _)

theorem Memory.wf_nil : Memory.wf [] := List.Pairwise.nil

/-- A write keeps the canonical form. -/
theorem Memory.write_wf {m : Memory} (h : m.wf) (i : Nat) (v : Byte) : (m.write i v).wf := by
  induction m with
  | nil => exact List.pairwise_singleton _ _
  | cons c rest ih =>
    obtain ⟨a, w⟩ := c
    obtain ⟨ha, hr⟩ := List.pairwise_cons.mp h
    unfold Memory.write
    split
    · next hlt =>
      refine List.pairwise_cons.mpr ⟨?_, h⟩
      intro d hd
      rcases List.mem_cons.mp hd with rfl | hd
      · exact hlt
      · exact Nat.lt_trans hlt (ha d hd)
    · split
      · next _ heq => subst heq; exact List.pairwise_cons.mpr ⟨ha, hr⟩
      · next hlt hne =>
        refine List.pairwise_cons.mpr ⟨?_, ih hr⟩
        intro d hd
        rcases Memory.mem_write hd with rfl | hd
        · show a < i; omega
        · exact ha d hd

theorem Memory.byteAt_write (m : Memory) (i j : Nat) (v : Byte) :
    (m.write i v).byteAt j = if j = i then v else m.byteAt j := by
  unfold Memory.byteAt
  rw [Memory.read?_write]
  split <;> rfl

/-- The reset memory has the canonical form. -/
theorem reset_memory_wf : State.reset.rx.buf.wf := Memory.wf_nil

end Sys2Proof.Machine
end

