-- ==== Sys2Proof/Laws/Ops.lean ====
section
/-! SUPPORT. One lemma for each shared operation, saying once everything it can do. -/

namespace Sys2Proof.Machine

/-! ### `cmderr` -/

/-- The first error is kept (R205). -/
theorem State.cmdError_eq (s : State) (c : CmdErr) :
    s.cmdError c = s.withCmdErr (if s.cmdErr = .none then c else s.cmdErr) := by
  unfold State.cmdError
  cases h : s.cmdErr <;> simp only [if_true, reduceCtorEq, if_false]
  all_goals rw [← h]; rfl

@[simp] theorem State.cmdError_params (s : State) (c : CmdErr) : (s.cmdError c).params = s.params := by
  rw [cmdError_eq]; rfl
@[simp] theorem State.cmdError_tx (s : State) (c : CmdErr) : (s.cmdError c).tx = s.tx := by
  rw [cmdError_eq]; rfl
@[simp] theorem State.cmdError_rx (s : State) (c : CmdErr) : (s.cmdError c).rx = s.rx := by
  rw [cmdError_eq]; rfl
@[simp] theorem State.cmdError_ck (s : State) (c : CmdErr) : (s.cmdError c).ck = s.ck := by
  rw [cmdError_eq]; rfl
@[simp] theorem State.cmdError_env (s : State) (c : CmdErr) : (s.cmdError c).env = s.env := by
  rw [cmdError_eq]; rfl

/-! ### Transmit -/

/-- A transmit command emits its bytes when they fit, and changes nothing when they do not (R141). -/
theorem State.transmit_cases (s : State) (xs : List Byte) (u : TxUnit) :
    (s.tx.queue.length + xs.length ≤ s.params.txqDepth ∧ s.transmit xs u = s.withTx (u.emit xs)) ∨
    (s.params.txqDepth < s.tx.queue.length + xs.length ∧ s.transmit xs u = s) := by
  unfold State.transmit State.hasRoom
  by_cases h : s.tx.queue.length + xs.length ≤ s.params.txqDepth
  · exact .inl ⟨h, by simp [h]⟩
  · exact .inr ⟨by omega, by simp [h]⟩

/-- One line byte, or two for a special byte (R136). -/
theorem stuff1_length (b : Byte) : (stuff1 b).length = if isSpecial b then 2 else 1 := by
  by_cases h1 : b = startDelimiter
  · subst h1; rfl
  · by_cases h2 : b = escapeByte
    · subst h2; rfl
    · by_cases h3 : b = endDelimiter
      · subst h3; rfl
      · simp [stuff1, isSpecial, h1, h2, h3]

theorem stuff1_length_bounds (b : Byte) : 1 ≤ (stuff1 b).length ∧ (stuff1 b).length ≤ 2 := by
  rw [stuff1_length]; split <;> omega

/-- TX_END emits three to five bytes (R136). -/
theorem endBytes_length_bounds (sum : Half) : 3 ≤ (endBytes sum).length ∧ (endBytes sum).length ≤ 5 := by
  have h1 := stuff1_length_bounds (lowByte sum)
  have h2 := stuff1_length_bounds (highByte sum)
  simp only [endBytes, List.length_append, List.length_singleton]
  omega

/-! ### Receive -/

/-- The append primitive: overflow on a full buffer, else the byte is stored at `rx_len` (R177). -/
theorem RxUnit.append_cases (rx : RxUnit) (p : Config.Params) (v : Byte) :
    (p.rxCap = some rx.len ∧ rx.append p v = rx.finish .overflow) ∨
    (p.rxCap ≠ some rx.len ∧
      rx.append p v = { rx with buf := rx.buf.write rx.len v, len := rx.len + 1 }) := by
  unfold RxUnit.append RxUnit.full
  by_cases h : p.rxCap = some rx.len
  · exact .inl ⟨h, by simp [h]⟩
  · exact .inr ⟨h, by simp [h]⟩

/-- The received bytes grow by the byte appended (R177). -/
theorem received_write (rx : RxUnit) (v : Byte) :
    RxUnit.received { rx with buf := rx.buf.write rx.len v, len := rx.len + 1 } = rx.received ++ [v] := by
  simp only [RxUnit.received, List.range_succ, List.map_append, List.map_cons, List.map_nil,
    Memory.byteAt_write, if_true]
  congr 1
  refine List.map_congr_left fun i hi => ?_
  have : i ≠ rx.len := by have := List.mem_range.mp hi; omega
  show (rx.buf.write rx.len v).byteAt i = rx.buf.byteAt i
  rw [Memory.byteAt_write, if_neg this]

@[simp] theorem received_length (rx : RxUnit) : rx.received.length = rx.len := by
  simp [RxUnit.received]

/-- An escape code is one of three, and stands for the special byte with that code (R71). -/
theorem esc_some {c v : Byte} (h : esc c = some v) :
    (c = 0x05#8 ∧ v = startDelimiter) ∨ (c = 0x0A#8 ∧ v = escapeByte) ∨
      (c = 0x0E#8 ∧ v = endDelimiter) := by
  unfold esc at h
  split at h
  · exact .inl ⟨‹_›, by simpa using h.symm⟩
  · split at h
    · exact .inr (.inl ⟨‹_›, by simpa using h.symm⟩)
    · split at h
      · exact .inr (.inr ⟨‹_›, by simpa using h.symm⟩)
      · cases h

theorem esc_none_iff (c : Byte) : esc c = none ↔ c ≠ 0x05#8 ∧ c ≠ 0x0A#8 ∧ c ≠ 0x0E#8 := by
  unfold esc
  split
  · simp_all
  · split
    · simp_all
    · split <;> simp_all

/-- Everything an accepted line byte can do (R171 to R177, R182). -/
theorem RxUnit.takeByte_cases (rx : RxUnit) (p : Config.Params) (b : Byte) :
    (rx.state = .stopped ∧ rx.takeByte p b = rx) ∨
    (rx.state = .idle ∧ b = startDelimiter ∧ rx.takeByte p b = { rx with state := .inPacket, len := 0 }) ∨
    (rx.state = .idle ∧ b ≠ startDelimiter ∧ rx.takeByte p b = rx) ∨
    (rx.state = .inPacket ∧ b = escapeByte ∧ rx.takeByte p b = { rx with state := .escaped }) ∨
    (rx.state = .inPacket ∧ b = endDelimiter ∧ rx.takeByte p b = rx.complete p) ∨
    (rx.state = .inPacket ∧ b ≠ escapeByte ∧ b ≠ endDelimiter ∧ p.rxCap = some rx.len ∧
      rx.takeByte p b = rx.finish .overflow) ∨
    (rx.state = .inPacket ∧ b ≠ escapeByte ∧ b ≠ endDelimiter ∧ p.rxCap ≠ some rx.len ∧
      rx.takeByte p b = { rx with buf := rx.buf.write rx.len b, len := rx.len + 1 }) ∨
    (rx.state = .escaped ∧ esc b = none ∧ rx.takeByte p b = rx.finish .invalidEscape) ∨
    (∃ v, rx.state = .escaped ∧ esc b = some v ∧ p.rxCap = some rx.len ∧
      rx.takeByte p b = rx.finish .overflow) ∨
    (∃ v, rx.state = .escaped ∧ esc b = some v ∧ p.rxCap ≠ some rx.len ∧
      rx.takeByte p b =
        { rx with state := .inPacket, buf := rx.buf.write rx.len v, len := rx.len + 1 }) := by
  cases hst : rx.state with
  | stopped => exact .inl ⟨rfl, by simp [takeByte, hst]⟩
  | idle =>
    by_cases hb : b = startDelimiter
    · exact .inr (.inl ⟨rfl, hb, by simp [takeByte, hst, hb]⟩)
    · exact .inr (.inr (.inl ⟨rfl, hb, by simp [takeByte, hst, hb]⟩))
  | inPacket =>
    by_cases hb : b = escapeByte
    · exact .inr (.inr (.inr (.inl ⟨rfl, hb, by simp [takeByte, hst, hb]⟩)))
    · by_cases he : b = endDelimiter
      · exact .inr (.inr (.inr (.inr (.inl
          ⟨rfl, he, by simp [takeByte, hst, he, endDelimiter, escapeByte]⟩))))
      · rcases append_cases rx p b with ⟨hc, ha⟩ | ⟨hc, ha⟩
        · exact .inr (.inr (.inr (.inr (.inr (.inl
            ⟨rfl, hb, he, hc, by simp [takeByte, hst, hb, he, ha]⟩)))))
        · exact .inr (.inr (.inr (.inr (.inr (.inr (.inl
            ⟨rfl, hb, he, hc, by simp [takeByte, hst, hb, he, ha]⟩))))))
  | escaped =>
    cases hv : esc b with
    | none =>
      exact .inr (.inr (.inr (.inr (.inr (.inr (.inr (.inl
        ⟨rfl, rfl, by simp [takeByte, hst, hv]⟩)))))))
    | some v =>
      rcases append_cases rx p v with ⟨hc, ha⟩ | ⟨hc, ha⟩
      · exact .inr (.inr (.inr (.inr (.inr (.inr (.inr (.inr (.inl
          ⟨v, rfl, rfl, hc, by simp [takeByte, hst, hv, ha]⟩))))))))
      · exact .inr (.inr (.inr (.inr (.inr (.inr (.inr (.inr (.inr
          ⟨v, rfl, rfl, hc, by simp [takeByte, hst, hv, ha]⟩))))))))

theorem RxUnit.receiving_iff (rx : RxUnit) : rx.receiving = true ↔ rx.state ≠ .stopped := by
  unfold RxUnit.receiving
  split <;> simp_all

/-- Every memory operation of the receive unit keeps the canonical form of `rx_buf`. -/
theorem RxUnit.takeByte_buf_wf (rx : RxUnit) (p : Config.Params) (b : Byte) (h : rx.buf.wf) :
    (rx.takeByte p b).buf.wf := by
  rcases rx.takeByte_cases p b with ⟨_, e⟩ | ⟨_, _, e⟩ | ⟨_, _, e⟩ | ⟨_, _, e⟩ | ⟨_, _, e⟩ |
    ⟨_, _, _, _, e⟩ | ⟨_, _, _, _, e⟩ | ⟨_, _, e⟩ | ⟨_, _, _, _, e⟩ | ⟨_, _, _, _, e⟩ <;> rw [e]
  all_goals first
    | exact h
    | exact Memory.write_wf h _ _

end Sys2Proof.Machine
end

