-- ==== Sys2Proof/Laws/PerInstr.lean ====
section
/-! SUPPORT. Per instruction: the encoded word is a word of the instruction's own row of the opcode map. -/

namespace Sys2Proof.Laws.EncodeInRow

/-- The row of R82 an instruction belongs to; none for the five events that are not command words (R87). -/
def rowOf (i : Instr) : Option Row :=
  match i with
  | .nop => some Op.nop.row
  | .txStart => some Op.txStart.row
  | .txData _ => some Op.txData.row
  | .txEnd => some Op.txEnd.row
  | .rxStart => some Op.rxStart.row
  | .rxAbort => some Op.rxAbort.row
  | .ckClear => some Op.ckClear.row
  | .ckAdd _ => some Op.ckAdd.row
  | .ckVerify _ _ => some Op.ckVerify.row
  | .errClear => some Op.errClear.row
  | .lineRx _ | .lineTx | .read _ | .rxTimeout | .reset => none

/-- `(w & mask) = match` for the encoded word `w` (R82); an event that is no command is presented at
another port than the command port (R87). -/
def Statement (i : Instr) : Prop :=
  match rowOf i, encode i with
  | some r, .command w => w &&& r.mask = r.base
  | some _, _ => False
  | none, .command _ => False
  | none, _ => True

theorem byte_masked (v : Byte) : v.setWidth 32 &&& 0xFFFFFF00#32 = 0#32 := by
  apply BitVec.eq_of_getLsbD_eq
  intro i hi
  have h : ∀ k, k < 32 → 8 ≤ k ∨ (0xFFFFFF00#32).getLsbD k = false := by decide
  rcases h i hi with h | h <;> simp [h, BitVec.getLsbD_of_ge]

theorem field_masked (v : Byte) : (v.setWidth 32 <<< 8) &&& 0xFFFF0000#32 = 0#32 := by
  apply BitVec.eq_of_getLsbD_eq
  intro i hi
  have h : ∀ k, k < 32 → (k < 8 ∨ 8 ≤ k - 8) ∨ (0xFFFF0000#32).getLsbD k = false := by decide
  rcases h i hi with (h | h) | h
  · simp [h]
  · simp [BitVec.getLsbD_of_ge _ _ h]
  · simp [h]

theorem low_masked (v : Byte) : v.setWidth 32 &&& 0xFFFF0000#32 = 0#32 := by
  apply BitVec.eq_of_getLsbD_eq
  intro i hi
  have h : ∀ k, k < 32 → 8 ≤ k ∨ (0xFFFF0000#32).getLsbD k = false := by decide
  rcases h i hi with h | h <;> simp [h, BitVec.getLsbD_of_ge]

theorem nop : Statement .nop := (rfl : _ &&& _ = _)
theorem txStart : Statement .txStart := (rfl : _ &&& _ = _)
theorem txData (b : Byte) : Statement (.txData b) := by
  show (0x02000000#32 ||| 0#32 ||| b.setWidth 32) &&& 0xFFFFFF00#32 = _
  rw [BitVec.and_or_distrib_right, byte_masked]; rfl
theorem txEnd : Statement .txEnd := (rfl : _ &&& _ = _)
theorem rxStart : Statement .rxStart := (rfl : _ &&& _ = _)
theorem rxAbort : Statement .rxAbort := (rfl : _ &&& _ = _)
theorem ckClear : Statement .ckClear := (rfl : _ &&& _ = _)
theorem ckAdd (b : Byte) : Statement (.ckAdd b) := by
  show (0x21000000#32 ||| 0#32 ||| b.setWidth 32) &&& 0xFFFFFF00#32 = _
  rw [BitVec.and_or_distrib_right, byte_masked]; rfl
theorem ckVerify (f0 f1 : Byte) : Statement (.ckVerify f0 f1) := by
  show (0x22000000#32 ||| (f1.setWidth 32 <<< 8) ||| f0.setWidth 32) &&& 0xFFFF0000#32 = _
  rw [BitVec.and_or_distrib_right, BitVec.and_or_distrib_right, field_masked, low_masked]; rfl
theorem errClear : Statement .errClear := (rfl : _ &&& _ = _)
theorem lineRx (b : Byte) : Statement (.lineRx b) := trivial
theorem lineTx : Statement .lineTx := trivial
theorem read (addr : Half) : Statement (.read addr) := trivial
theorem rxTimeout : Statement .rxTimeout := trivial
theorem reset : Statement .reset := trivial

end Sys2Proof.Laws.EncodeInRow
end

