-- ==== Sys2Proof/Laws/Step.lean ====
section
/-! SUPPORT. What one event and one step can do, said once. -/

namespace Sys2Proof.Machine

open Host (Outcome)

/-- Every event has a next state: no arm of `exec` faults or refuses (R220). -/
theorem exec_next (i : Instr) (s : State) : ∃ t, exec i s = .next t := by
  cases i <;> simp only [exec, execNop, execErrClear, execRead, execReset, execCkClear, execCkAdd,
    execCkVerify, execRxStart]
  case txStart => unfold execTxStart; split <;> exact ⟨_, rfl⟩
  case txData b => unfold execTxData; split <;> exact ⟨_, rfl⟩
  case txEnd => unfold execTxEnd; split <;> exact ⟨_, rfl⟩
  case rxAbort => unfold execRxAbort; split <;> exact ⟨_, rfl⟩
  case lineRx b => unfold execLineRx; split <;> exact ⟨_, rfl⟩
  case lineTx => unfold execLineTx; split <;> exact ⟨_, rfl⟩
  case rxTimeout => unfold execRxTimeout; split <;> exact ⟨_, rfl⟩
  all_goals exact ⟨_, rfl⟩

/-- Everything a step can do. -/
theorem step_cases (s : State) :
    (nextGrant s.env.schedule = none ∧ step s = .next s) ∨
    (∃ g, nextGrant s.env.schedule = some g ∧ presented g.agent s.env = none ∧
      step s = .next (s.afterTurn g false)) ∨
    (∃ g ev e, nextGrant s.env.schedule = some g ∧ presented g.agent s.env = some ev ∧
      decode ev = .error e ∧ step s = .next ((s.afterTurn g true).cmdError (errorCode e))) ∨
    (∃ g ev i, nextGrant s.env.schedule = some g ∧ presented g.agent s.env = some ev ∧
      decode ev = .ok i ∧ step s = exec i (s.afterTurn g (enabled i s))) := by
  unfold step
  cases hg : nextGrant s.env.schedule with
  | none => exact .inl ⟨rfl, rfl⟩
  | some g =>
    cases hp : presented g.agent s.env with
    | none => exact .inr (.inl ⟨g, rfl, hp, by simp [hp]⟩)
    | some ev =>
      cases hd : decode ev with
      | error e => exact .inr (.inr (.inl ⟨g, ev, e, rfl, hp, hd, by simp [hp, hd, execIllegal]⟩))
      | ok i => exact .inr (.inr (.inr ⟨g, ev, i, rfl, hp, hd, by simp [hp, hd]⟩))

/-- An event that is not enabled changes nothing (R10). -/
theorem exec_of_not_enabled (i : Instr) (s : State) (h : enabled i s = false) : exec i s = .next s := by
  cases i <;> simp only [enabled, out, Bool.or_eq_false_iff, reduceCtorEq] at h
  case txStart =>
    obtain ⟨h1, h2⟩ := h
    cases hs : s.tx.state <;> simp [hs] at h1 h2
    simp [exec, execTxStart, hs, State.transmit, h2]
  case txData b =>
    obtain ⟨h1, h2⟩ := h
    cases hs : s.tx.state <;> simp [hs] at h1 h2
    simp [exec, execTxData, hs, State.transmit, h2]
  case txEnd =>
    obtain ⟨h1, h2⟩ := h
    cases hs : s.tx.state <;> simp [hs] at h1 h2
    simp [exec, execTxEnd, hs, State.transmit, h2]
  case lineRx b => simp [exec, execLineRx, h]
  case rxTimeout => simp [exec, execRxTimeout, h]
  case lineTx =>
    have : s.tx.queue = [] := by simpa using h
    simp [exec, execLineTx, this]

/-- A run goes on from the state its first step answers. -/
theorem run_succ_of_next (k : Nat) (s t : State) (h : step s = .next t) : run (k + 1) s = run k t := by
  simp [run, h]

/-- `run` is the host's own reading of k steps of this machine. -/
theorem run_eq_core_run (k : Nat) (s : State) : Sys2Proof.core.run k s = run k s := by
  induction k generalizing s with
  | zero => rfl
  | succ k ih =>
    refine (Host.Core.run.eq_2 Sys2Proof.core s k).trans ?_
    have hc : Sys2Proof.core.step s = step s := rfl
    rw [hc]
    unfold run
    cases step s with
    | next t => exact ih t
    | fault r => rfl
    | refused r => rfl

end Sys2Proof.Machine
end

