-- ==== Sys2Proof/Tests/Slice0.lean ====
section
/-! SUPPORT. Checks of the model against words, values and vectors of spec/ (each theorem names its source), and for every statement a state that meets its hypotheses. -/

namespace Sys2Proof.Tests

open Sys2Proof Sys2Proof.Machine

/-! ### Helpers -/

/-- The next state of an outcome. -/
def nextOf (o : Host.Outcome State Fault Refusal) : Option State :=
  match o with
  | .next t => some t
  | .fault _ => none
  | .refused _ => none

/-- What a read of the state after an event gives. -/
def readAfter (i : Instr) (s : State) (a : Half) : Option Word := (nextOf (exec i s)).map (memRead · a)

/-- STATUS after a step. -/
def statusAfterStep (s : State) : Option Word := (nextOf (step s)).map (memRead · 0x0000#16)

/-- Cells 0, 1, ... holding the bytes. -/
def cellsFrom (i : Nat) (xs : List Byte) : Memory :=
  match xs with
  | [] => []
  | b :: rest => (i, b) :: cellsFrom (i + 1) rest

/-- From reset, with a transmit unit. -/
def txAt (st : TxState) (sum : Half) (q : List Byte) : State :=
  { State.reset with tx := { state := st, sum := sum, queue := q } }

/-- From reset, with a receive unit that has stored the bytes. -/
def rxAt (st : RxState) (r : RxResult) (xs : List Byte) : State :=
  { State.reset with rx :=
    { state := st, result := r, buf := cellsFrom 0 xs, len := xs.length, check := Validation.clear } }

/-- From reset, with a checksum unit. -/
def ckAt (acc : Half) (le be : Bool) : State :=
  { State.reset with ck := { acc := acc, matchLe := le, matchBe := be } }

/-- With other parameters. -/
def withParams (s : State) (cap : Option Nat) (depth minLen : Nat) : State :=
  { s with params := { rxCap := cap, txqDepth := depth, minLen := minLen } }

/-- With words at the command port, bytes at the line input, and a schedule. -/
def offering (s : State) (ws : List Word) (bs : List Byte) (sched : List Turn) : State :=
  { s with env := { Env.empty with commands := ws, lineIn := bs, schedule := sched } }

/-- A body and its field, the worked example of spec/95_test_vectors.md V-FR-5. -/
def exampleFrame : List Byte := [0x68#8, 0x32#8, 0x01#8, 0x46#8, 0x00#8, 0xE1#8, 0x00#8]

/-! ### Well-formedness: each check refuses (R7) -/

theorem test_suggested_params_legal : Config.Params.suggested.wf = true := by decide
theorem test_rxCap_below_refused :
    ({ Config.Params.suggested with rxCap := some 1 } : Config.Params).wf = false := by decide
theorem test_rxCap_above_refused :
    ({ Config.Params.suggested with rxCap := some 61441 } : Config.Params).wf = false := by decide
theorem test_rxCap_bounds_legal :
    ({ rxCap := some 2, txqDepth := 5, minLen := 2 } : Config.Params).wf = true ∧
    ({ rxCap := some 61440, txqDepth := 15, minLen := 255 } : Config.Params).wf = true ∧
    ({ rxCap := none, txqDepth := 5, minLen := 2 } : Config.Params).wf = true := by decide
theorem test_txqDepth_below_refused :
    ({ Config.Params.suggested with txqDepth := 4 } : Config.Params).wf = false := by decide
theorem test_txqDepth_above_refused :
    ({ Config.Params.suggested with txqDepth := 16 } : Config.Params).wf = false := by decide
theorem test_minLen_below_refused :
    ({ Config.Params.suggested with minLen := 1 } : Config.Params).wf = false := by decide
theorem test_minLen_above_refused :
    ({ Config.Params.suggested with minLen := 256 } : Config.Params).wf = false := by decide

/-! ### Decoding: one word or port value for each constructor, bits written out from R81, R82, R87 -/

theorem test_decode_nop :
    decode (.command 0b00000000_00000000_00000000_00000000#32) = .ok .nop := by decide
theorem test_decode_txStart :
    decode (.command 0b00000001_00000000_00000000_00000000#32) = .ok .txStart := by decide
theorem test_decode_txData :
    decode (.command 0b00000010_00000000_00000000_10100101#32) = .ok (.txData 0xA5#8) := by decide
theorem test_decode_txEnd :
    decode (.command 0b00000011_00000000_00000000_00000000#32) = .ok .txEnd := by decide
theorem test_decode_rxStart :
    decode (.command 0b00010000_00000000_00000000_00000000#32) = .ok .rxStart := by decide
theorem test_decode_rxAbort :
    decode (.command 0b00010001_00000000_00000000_00000000#32) = .ok .rxAbort := by decide
theorem test_decode_ckClear :
    decode (.command 0b00100000_00000000_00000000_00000000#32) = .ok .ckClear := by decide
theorem test_decode_ckAdd :
    decode (.command 0b00100001_00000000_00000000_11111111#32) = .ok (.ckAdd 0xFF#8) := by decide
/-- `f0` is the first byte received and stands in IMM[7:0], `f1` in IMM[15:8] (R81). -/
theorem test_decode_ckVerify :
    decode (.command 0b00100010_00000000_11100001_00000010#32) = .ok (.ckVerify 0x02#8 0xE1#8) := by decide
theorem test_decode_errClear :
    decode (.command 0b00110000_00000000_00000000_00000000#32) = .ok .errClear := by decide
theorem test_decode_lineRx : decode (.lineByte 0b10100101#8) = .ok (.lineRx 0xA5#8) := by decide
theorem test_decode_lineTx : decode .lineTake = .ok .lineTx := by decide
theorem test_decode_read :
    decode (.readAddr 0b00010000_00000100#16) = .ok (.read 0x1004#16) := by decide
theorem test_decode_rxTimeout : decode .timeoutPulse = .ok .rxTimeout := by decide
theorem test_decode_reset : decode .resetPulse = .ok .reset := by decide
theorem test_decodeTableWord :
    decodeTableWord 32 0x2200E100 = some (.ckVerify 0x00#8 0xE1#8) ∧
    decodeTableWord 16 0x1000 = some (.read 0x1000#16) ∧
    decodeTableWord 8 0xA5 = some (.lineRx 0xA5#8) := by decide

/-- V-CM-3, V-CM-4, V-CM-5: the OP is looked at before the reserved bits. -/
theorem test_decode_unknownOp :
    decode (.command 0x04000000#32) = .error .unknownOp ∧
    decode (.command 0xFF000000#32) = .error .unknownOp ∧
    decode (.command 0x04000001#32) = .error .unknownOp := by decide
/-- V-TX-13, V-TX-14, V-CM-2, V-CM-8 and V-CM-10 to V-CM-14, V-CK-16: one set reserved bit in each. -/
theorem test_decode_rsvdBits :
    [0x00000001#32, 0x01000001#32, 0x02000100#32, 0x03000100#32, 0x10000010#32,
      0x11800000#32, 0x20000001#32, 0x21000100#32, 0x22010000#32, 0x30000001#32].map
      (fun w => decode (.command w)) = List.replicate 10 (.error .rsvdBits) := by decide

/-! ### The wire format (V-CK, V-ST, V-FR) -/

theorem test_checksum_example :
    checksum [0x68#8, 0x32#8, 0x01#8, 0x46#8, 0x00#8] = 0x00E1#16 := by decide
theorem test_frame_empty : frame [] = [0xA5#8, 0x00#8, 0x00#8, 0xAE#8] := by decide
/-- V-FR-6. -/
theorem test_frame_stuffed : frame [0xAA#8, 0xAE#8] =
    [0xA5#8, 0xAA#8, 0x0A#8, 0xAA#8, 0x0E#8, 0x58#8, 0x01#8, 0xAE#8] := by decide
/-- V-ST-10 to V-ST-15. -/
theorem test_unstuff :
    unstuff [0xAA#8, 0x07#8] = none ∧ unstuff [0xAA#8] = none ∧
    unstuff [0x01#8, 0xAA#8, 0xAA#8] = none ∧ unstuff [0xAA#8, 0xAE#8] = none ∧
    unstuff [0xAA#8, 0x05#8, 0xAA#8, 0x0A#8, 0xAA#8, 0x0E#8] = some [0xA5#8, 0xAA#8, 0xAE#8] ∧
    unstuff [0xA5#8, 0xAE#8] = some [0xA5#8, 0xAE#8] := by decide

/-! ### One event each -/

/-- V-CM-1. -/
theorem test_nop : nextOf (exec .nop (ckAt 0x00E1#16 true false)) = some (ckAt 0x00E1#16 true false) := by
  decide
/-- V-TX-1. -/
theorem test_txStart_status : readAfter .txStart State.reset 0x0000#16 = some 0x00000011#32 := by decide
/-- V-TX-10. -/
theorem test_txStart_sequence :
    readAfter .txStart (txAt .body 0#16 [0xA5#8]) 0x0000#16 = some 0x03000011#32 := by decide
/-- V-TX-2. -/
theorem test_txData_stuffed : nextOf (exec (.txData 0xAE#8) (txAt .body 0x0010#16 [])) =
    some (txAt .body 0x00BE#16 [0xAA#8, 0x0E#8]) := by decide
/-- V-TX-4. -/
theorem test_txData_wraps : nextOf (exec (.txData 0x01#8) (txAt .body 0xFFFF#16 [])) =
    some (txAt .body 0x0000#16 [0x01#8]) := by decide
/-- V-TX-8: the low byte goes first. -/
theorem test_txEnd_low_first : nextOf (exec .txEnd (txAt .body 0xAEA5#16 [])) =
    some (txAt .idle 0xAEA5#16 [0xAA#8, 0x05#8, 0xAA#8, 0x0E#8, 0xAE#8]) := by decide
/-- V-TX-9: three bytes do not fit behind four in a queue of five. -/
theorem test_txEnd_waits :
    let s := withParams (txAt .body 0x014F#16 [0xAA#8, 0x05#8, 0xAA#8, 0x0A#8]) (some 4096) 5 7
    nextOf (exec .txEnd s) = some s := by decide
/-- Program P1, event 7. -/
theorem test_lineTx_takes_head :
    (nextOf (exec .lineTx (txAt .body 0x00E1#16 [0xA5#8, 0x68#8]))).map
      (fun t => (t.env.lineOut, t.tx.queue)) = some ([0xA5#8], [0x68#8]) := by decide
/-- V-RX-22: a new RX_START. -/
theorem test_rxStart_restarts :
    readAfter .rxStart (rxAt .inPacket .none [1#8, 2#8, 3#8]) 0x0000#16 = some 0x00000100#32 := by decide
/-- V-RX-19. -/
theorem test_rxAbort :
    readAfter .rxAbort (rxAt .inPacket .none [1#8, 2#8]) 0x0000#16 = some 0x10005000#32 := by decide
/-- As V-RX-20, but with no validator value set: the FRAME result stays. -/
theorem test_rxAbort_stopped :
    readAfter .rxAbort (rxAt .stopped .frame exampleFrame) 0x0000#16 = some 0x10001000#32 := by decide
/-- V-RX-18: a timeout in ESCAPED. -/
theorem test_rxTimeout_escaped :
    readAfter .rxTimeout (rxAt .escaped .none [1#8]) 0x0000#16 = some 0x10003000#32 := by decide
/-- V-RX-2: the end of a frame whose field came high byte first. -/
theorem test_lineRx_completes_be :
    let s := rxAt .inPacket .none [0x68#8, 0x32#8, 0x01#8, 0x46#8, 0x00#8, 0x00#8, 0xE1#8]
    readAfter (.lineRx 0xAE#8) s 0x0000#16 = some 0x10061000#32 ∧
    readAfter (.lineRx 0xAE#8) s 0x0008#16 = some 0xE10000E1#32 := by decide
/-- V-RX-12: a valid escape code with a full buffer. -/
theorem test_lineRx_overflow :
    let s := withParams (rxAt .escaped .none [1#8, 2#8]) (some 2) 8 7
    readAfter (.lineRx 0x05#8) s 0x0000#16 = some 0x10004000#32 ∧
    readAfter (.lineRx 0x05#8) s 0x1000#16 = some 0x00000201#32 := by decide
/-- V-CK-13. -/
theorem test_ckClear : nextOf (exec .ckClear (ckAt 0x00E1#16 true false)) =
    some (ckAt 0#16 false false) := by decide
/-- V-CK-11. -/
theorem test_ckAdd_clears_flags : nextOf (exec (.ckAdd 0x00#8) (ckAt 0x00E1#16 true false)) =
    some (ckAt 0x00E1#16 false false) := by decide
/-- V-CK-12. -/
theorem test_ckAdd_wraps : nextOf (exec (.ckAdd 0x01#8) (ckAt 0xFFFF#16 false false)) =
    some (ckAt 0x0000#16 false false) := by decide
/-- V-CK-7. -/
theorem test_ckVerify_be :
    readAfter (.ckVerify 0x00#8 0xE1#8) (ckAt 0x00E1#16 false false) 0x0000#16 =
      some 0x00200000#32 := by decide
/-- V-CK-15. -/
theorem test_ckVerify_le :
    readAfter (.ckVerify 0x00#8 0x01#8) (ckAt 0x0100#16 false false) 0x0000#16 =
      some 0x00100000#32 := by decide
/-- V-CM-7. -/
theorem test_errClear :
    readAfter .errClear (State.reset.withCmdErr .sequence) 0x0000#16 = some 0#32 := by decide
/-- V-RD-7, its first word, and V-RD-2, on the port. -/
theorem test_read_port :
    (nextOf (exec (.read 0x1000#16) (rxAt .stopped .frame exampleFrame))).map (·.env.readOut) =
      some [0x46013268#32] ∧
    (nextOf (exec (.read 0x0017#16) State.reset)).map (·.env.readOut) = some [0x07081000#32] := by decide
/-- V-RS-1, the transmit side and the error. -/
theorem test_reset :
    let s := (txAt .body 0x00A5#16 [0xA5#8, 0xAA#8, 0x05#8]).withCmdErr .unknownOp
    readAfter .reset s 0x0000#16 = some 0#32 ∧
    (nextOf (exec .reset s)).map (·.tx.queue) = some [] := by decide

/-! ### One step each -/

/-- V-CM-6, second word: the first error is kept. -/
theorem test_step_first_error_kept :
    statusAfterStep (offering (State.reset.withCmdErr .sequence) [0x04000000#32] [] [.agent .command]) =
      some 0x03000000#32 := by decide
/-- V-CM-9: ERR_CLEAR with a reserved bit set does not clear. -/
theorem test_step_bad_errClear :
    statusAfterStep (offering (State.reset.withCmdErr .sequence) [0x30000001#32] [] [.agent .command]) =
      some 0x03000000#32 := by decide
/-- V-RX-24: after reset a line byte is not accepted, and stays. -/
theorem test_step_stopped_byte_stays :
    (nextOf (step (offering State.reset [] [0xA5#8] [.agent .lineRx]))).map (·.env.lineIn) =
      some [0xA5#8] := by decide
/-- V-RX-25: the byte is accepted, and the timeout of its cycle is dropped. -/
theorem test_step_same_cycle :
    let s := offering (rxAt .inPacket .none [1#8]) [] [2#8]
      [.cycle { Cycle.quiet with lineRx := true, rxTimeout := true }]
    statusAfterStep s = some 0x00000200#32 ∧
    (nextOf (step s)).map (fun t => (t.env.schedule, t.rx.len)) = some ([], 2) := by decide
/-- V-RS-2: a waiting word is not consumed by reset. -/
theorem test_step_reset_keeps_word :
    let s := offering (txAt .body 0x014F#16 [0xAA#8]) [0x03000000#32] [] [.agent .reset]
    (nextOf (step s)).map (·.env.commands) = some [0x03000000#32] := by decide
/-- The first step after reset runs the word that was placed. -/
theorem test_withFetchWord :
    statusAfterStep (State.reset.withFetchWord 32 0x22000000) = some 0x00300000#32 ∧
    statusAfterStep (State.reset.withFetchWord 32 0x03000000) = some 0x03000000#32 := by decide

/-! ### The assembler (R88, R89) -/

theorem test_assemble :
    assemble "CK_VERIFY 0xE1, 0x00 ; field".toList = some [.ckVerify 0xE1#8 0x00#8] ∧
    assemble "READ RX_DATA".toList = some [.read 0x1000#16] ∧
    assemble "TX_FRAME 0x01, 2".toList = some [.txStart, .txData 1#8, .txData 2#8, .txEnd] ∧
    assemble "TX_DATA 256".toList = none := by decide

/-- R88: `READ 0xaddr`, a hexadecimal digit in either case, and what is no number. -/
theorem test_assemble_numbers :
    assemble "READ 0x1004".toList = some [.read 0x1004#16] ∧
    numberOf "0xaE".toList = some 174 ∧ numberOf "90".toList = some 90 ∧
    numberOf "9A".toList = none ∧ numberOf "0x".toList = none ∧ numberOf [] = none := by decide

/-! ### Witnesses: for each statement with hypotheses, a state and operands that meet them, clause by clause -/

/-- EncodeOfDecodeIsTheWord. -/
theorem witness_EncodeOfDecodeIsTheWord :
    decode (.command 0x2200FFFF#32) = .ok (.ckVerify 0xFF#8 0xFF#8) := by decide

/-- StepRunsTheDecodedEvent: an accepted word, and a byte that is not accepted. -/
theorem witness_StepRunsTheDecodedEvent :
    (let s := offering State.reset [0x21000010#32] [] [.agent .command]
     s.env.schedule = [.agent .command] ∧
       presented .command s.env = some (.command 0x21000010#32) ∧
       decode (.command 0x21000010#32) = .ok (.ckAdd 0x10#8) ∧ enabled (.ckAdd 0x10#8) s = true) ∧
    (let s := offering State.reset [] [0xA5#8] [.agent .lineRx]
     s.env.schedule = [.agent .lineRx] ∧ presented .lineRx s.env = some (.lineByte 0xA5#8) ∧
       decode (.lineByte 0xA5#8) = .ok (.lineRx 0xA5#8) ∧ enabled (.lineRx 0xA5#8) s = false) := by
  decide

/-- IllegalWordRecordsItsError: both kinds. -/
theorem witness_IllegalWordRecordsItsError :
    (let s := offering State.reset [0xFFFFFFFF#32] [] [.agent .command]
     s.env.commands = [0xFFFFFFFF#32] ∧ s.env.schedule = [.agent .command] ∧
       (0xFFFFFFFF#32).extractLsb' 24 8 ∉ assignedOps) ∧
    (let s := offering State.reset [0x22010000#32] [] [.agent .command]
     s.env.commands = [0x22010000#32] ∧ s.env.schedule = [.agent .command]) ∧
    reservedBitSet 0x22010000#32 ∧ reservedBitSet 0x02000100#32 ∧ reservedBitSet 0x00800000#32 := by
  unfold reservedBitSet
  decide

/-- All five agents in one cycle, then one fewer each time. -/
def crowded (c : Cycle) : State :=
  offering (rxAt .inPacket .none [1#8]) [0x20000000#32] [2#8] [.cycle c]

/-- SameCycleOrder: each clause. -/
theorem witness_SameCycleOrder :
    (crowded ⟨true, true, true, true, true⟩).env.schedule = [.cycle ⟨true, true, true, true, true⟩] ∧
    ((crowded ⟨false, true, true, true, true⟩).env.commands = [0x20000000#32] ∧
      decode (.command 0x20000000#32) = .ok .ckClear ∧
      enabled .ckClear (crowded ⟨false, true, true, true, true⟩) = true ∧
      decode (.command 0x20000001#32) = .error .rsvdBits) ∧
    (crowded ⟨false, false, true, true, true⟩).env.schedule =
      [.cycle ⟨false, false, true, true, true⟩] ∧
    ((crowded ⟨false, false, false, true, true⟩).env.lineIn = [2#8] ∧
      (crowded ⟨false, false, false, true, true⟩).rx.state ≠ .stopped) ∧
    (let s := offering State.reset [] [2#8] [.cycle ⟨false, false, false, true, true⟩]
     s.env.lineIn = [2#8] ∧ s.rx.state = .stopped) ∧
    (crowded ⟨false, false, false, false, true⟩).env.schedule =
      [.cycle ⟨false, false, false, false, true⟩] := by decide

/-- StateIsHeldBetweenEvents and ParametersNeverChange: a step with nothing scheduled, and one whose event
is not enabled. -/
theorem witness_StateIsHeldBetweenEvents :
    (step State.reset = .next State.reset ∧ State.reset.env.schedule = []) ∧
    (let s := offering State.reset [] [] [.agent .lineTx]
     nextGrant s.env.schedule = some ⟨.lineTx, Cycle.quiet, []⟩ ∧
       presented .lineTx s.env = some .lineTake ∧ decode .lineTake = .ok .lineTx ∧
       enabled .lineTx s = false ∧ step s = .next (offering State.reset [] [] [])) := by
  refine ⟨⟨rfl, by decide⟩, by decide, by decide, by decide, by decide, rfl⟩

/-- The reserved-bit clauses of the results of the ten commands: the lowest and the highest reserved bit. -/
theorem witness_reserved_bits :
    (∀ op ∈ [0x00#8, 0x01#8, 0x03#8, 0x10#8, 0x11#8, 0x20#8, 0x30#8],
      (op ++ 0x000001#24).extractLsb' 24 8 = op ∧ (op ++ 0x000001#24) &&& 0x00FFFFFF#32 ≠ 0#32 ∧
      (op ++ 0x800000#24).extractLsb' 24 8 = op ∧ (op ++ 0x800000#24) &&& 0x00FFFFFF#32 ≠ 0#32) ∧
    (∀ op ∈ [0x02#8, 0x21#8],
      (op ++ 0x000100#24).extractLsb' 24 8 = op ∧ (op ++ 0x000100#24) &&& 0x00FFFF00#32 ≠ 0#32 ∧
      (op ++ 0x800000#24).extractLsb' 24 8 = op ∧ (op ++ 0x800000#24) &&& 0x00FFFF00#32 ≠ 0#32) ∧
    ((0x22010000#32).extractLsb' 24 8 = 0x22#8 ∧ 0x22010000#32 &&& 0x00FF0000#32 ≠ 0#32 ∧
      (0x22800000#32).extractLsb' 24 8 = 0x22#8 ∧ 0x22800000#32 &&& 0x00FF0000#32 ≠ 0#32) := by
  decide

/-- CommandErrorIsSticky. -/
theorem witness_CommandErrorIsSticky :
    let s := offering (State.reset.withCmdErr .unknownOp) [0x30000000#32] [] [.agent .command]
    s.cmdErr ≠ .none ∧ (nextOf (step s)).map (·.cmdErr) = some .none := by decide

/-- CkFlagsReferToThePresentSum: CK_VERIFY, and another event in a state with a true flag. -/
theorem witness_CkFlagsReferToThePresentSum :
    (nextOf (exec (.ckVerify 0xE1#8 0x00#8) (ckAt 0x00E1#16 false false))).map (·.ck.matchLe) =
      some true ∧
    exec .nop (ckAt 0x00E1#16 true false) = .next (ckAt 0x00E1#16 true false) ∧
    (ckAt 0x00E1#16 true false).ck.acc.toNat = (0xE1#8).toNat + 256 * (0x00#8).toNat := by
  refine ⟨by decide, rfl, by decide⟩

/-- ChecksumLaws: a permutation, and the longest list whose sum cannot wrap. -/
theorem witness_ChecksumLaws :
    [1#8, 2#8].Perm [2#8, 1#8] ∧ (List.replicate 257 0xFF#8).length ≤ 257 := by
  exact ⟨by decide, Nat.le_of_eq List.length_replicate⟩

/-- BodyBitFlipIsNeverAccepted: a body of one byte, its highest bit, in either reading. -/
theorem witness_BodyBitFlipIsNeverAccepted :
    0 < [1#8].length ∧ 7 < 8 ∧ matchesLe (checksum [1#8]) 0x01#8 0x00#8 = true ∧
    matchesBe (checksum [1#8]) 0x00#8 0x01#8 = true := by decide

/-- FieldBitFlipIsNeverAccepted: the last bit of the field. -/
theorem witness_FieldBitFlipIsNeverAccepted :
    1 < 2 ∧ 7 < 8 ∧ flipBit (checksumField [1#8]) 1 7 = [0x01#8, 0x80#8] := by decide

/-- ValidatorResult: a frame of one byte, and a receive about to complete. -/
theorem witness_ValidatorResult : [0x42#8].length < 2 ∧
    (rxAt .inPacket .none exampleFrame).rx.state = .inPacket ∧
    (rxAt .inPacket .none exampleFrame).params.minLen = 7 := by decide

/-- StuffingMap and InvalidEscapeIsNeverPassed: a byte that is not special, a byte that is no escape code. -/
theorem witness_StuffingMap :
    (0xA6#8 ≠ 0xA5#8 ∧ 0xA6#8 ≠ 0xAA#8 ∧ 0xA6#8 ≠ 0xAE#8) ∧
    (0xAE#8 ≠ 0x05#8 ∧ 0xAE#8 ≠ 0x0A#8 ∧ 0xAE#8 ≠ 0x0E#8) := by decide

/-- StuffingLaws: an escape byte at the very start of a stuffed sequence. -/
theorem witness_StuffingLaws : stuff [0xA5#8] = [] ++ 0xAA#8 :: [0x05#8] := by decide

/-- TxStartResult: an open frame; a queue with room for just one byte; a full queue. -/
theorem witness_TxStartResult :
    (txAt .body 0#16 []).tx.state = .body ∧
    (let s := txAt .idle 0#16 (List.replicate 7 0#8)
     s.tx.state = .idle ∧ s.tx.queue.length + 1 ≤ s.params.txqDepth) ∧
    (let s := txAt .idle 0#16 (List.replicate 8 0#8)
     s.tx.state = .idle ∧ s.params.txqDepth < s.tx.queue.length + 1) := by decide

/-- TxDataResult: no open frame; a special byte that just fits, and one that does not. -/
theorem witness_TxDataResult :
    (txAt .idle 0#16 []).tx.state = .idle ∧
    (let s := txAt .body 0#16 (List.replicate 6 0#8)
     s.tx.state = .body ∧ s.tx.queue.length + (stuff1 0xAE#8).length ≤ s.params.txqDepth) ∧
    (let s := txAt .body 0#16 (List.replicate 7 0#8)
     s.tx.state = .body ∧ s.params.txqDepth < s.tx.queue.length + (stuff1 0xAE#8).length) := by
  decide

/-- TxEndResult: no open frame; five bytes that just fit, and that do not. -/
theorem witness_TxEndResult :
    (txAt .idle 0#16 []).tx.state = .idle ∧
    (let s := txAt .body 0xA5AE#16 (List.replicate 3 0#8)
     s.tx.state = .body ∧ s.tx.sum.toNat = (0xAE#8).toNat + 256 * (0xA5#8).toNat ∧
     s.tx.queue.length + (stuff1 0xAE#8).length + (stuff1 0xA5#8).length + 1 ≤ s.params.txqDepth) ∧
    (let s := txAt .body 0xA5AE#16 (List.replicate 4 0#8)
     s.params.txqDepth < s.tx.queue.length + (stuff1 0xAE#8).length + (stuff1 0xA5#8).length + 1) := by
  decide

/-- TxWordWaitsForRoom: a TX_END that just fits, one that does not, and an empty queue. -/
theorem witness_TxWordWaitsForRoom :
    (let s := offering (txAt .body 0xA5AE#16 (List.replicate 3 0#8)) [0x03000000#32] [] [.agent .command]
     s.env.commands = [0x03000000#32] ∧ s.env.schedule = [.agent .command] ∧
       decode (.command 0x03000000#32) = .ok .txEnd ∧ isTxCommand .txEnd = true ∧
       s.tx.queue.length ≤ s.params.txqDepth ∧
       s.tx.queue.length + (out .txEnd s).length ≤ s.params.txqDepth) ∧
    (let s := offering (txAt .body 0xA5AE#16 (List.replicate 4 0#8)) [0x03000000#32] [] [.agent .command]
     s.tx.queue.length ≤ s.params.txqDepth ∧
       s.params.txqDepth < s.tx.queue.length + (out .txEnd s).length) ∧
    (let s := withParams (txAt .body 0xA5AE#16 []) (some 2) 5 2
     s.params.wf = true ∧ s.tx.queue = []) := by decide

/-- EmittedBytesKeepTheirOrder: each of the three commands with a frame open or not, and a next state. -/
theorem witness_EmittedBytesKeepTheirOrder :
    isTxCommand .nop = false ∧ State.reset.tx.state = .idle ∧
    (txAt .body 0#16 []).tx.state = .body ∧ exec .nop State.reset = .next State.reset := by
  refine ⟨by decide, by decide, by decide, rfl⟩

/-- WaitingWordIsAcceptedOnceTheLineDrains: a full queue and a TX_END of five bytes. -/
theorem witness_WaitingWordIsAcceptedOnceTheLineDrains :
    let s := offering (withParams (txAt .body 0xA5AE#16 (List.replicate 5 0#8)) (some 2) 5 2)
      [0x03000000#32] [] (List.replicate 5 (.agent .lineTx) ++ [.agent .command])
    s.params.wf = true ∧ s.env.commands = [0x03000000#32] ∧
      decode (.command 0x03000000#32) = .ok .txEnd ∧
      s.env.schedule = List.replicate s.tx.queue.length (.agent .lineTx) ++ [.agent .command] := by
  decide

/-- LineTxTakesTheHead: a queue of one byte, and an empty one. -/
theorem witness_LineTxTakesTheHead :
    (txAt .idle 0#16 [0xAE#8]).tx.queue = 0xAE#8 :: [] ∧ State.reset.tx.queue = [] := by decide

/-- TransmittedBytesAreTheFrame: the frame of a body of one byte, with other events between, and every
transmit command accepted in its turn. -/
theorem witness_TransmittedBytesAreTheFrame :
    let is : List Instr := [.rxStart, .txStart, .lineTx, .txData 0x12#8, .lineRx 0xA5#8, .txEnd]
    State.reset.tx.state = .idle ∧ is.filter isTxCommand = txFrame [0x12#8] ∧ .reset ∉ is ∧
    (∀ (a b : List Instr) (i : Instr) (t : State), is = a ++ i :: b → isTxCommand i = true →
      execAll a State.reset = .next t → enabled i t = true) := by
  refine ⟨by decide, by decide, by decide, ?_⟩
  intro a b i t h hi ht
  match a, h with
  | [], h => obtain ⟨rfl, _⟩ := List.cons_eq_cons.mp h; cases hi
  | [_], h =>
    simp only [List.cons_append, List.nil_append, List.cons.injEq] at h
    obtain ⟨rfl, rfl, _⟩ := h
    injection ht with ht; subst ht; decide
  | [_, _], h =>
    simp only [List.cons_append, List.nil_append, List.cons.injEq] at h
    obtain ⟨_, _, rfl, _⟩ := h
    cases hi
  | [_, _, _], h =>
    simp only [List.cons_append, List.nil_append, List.cons.injEq] at h
    obtain ⟨rfl, rfl, rfl, rfl, _⟩ := h
    injection ht with ht; subst ht; decide
  | [_, _, _, _], h =>
    simp only [List.cons_append, List.nil_append, List.cons.injEq] at h
    obtain ⟨_, _, _, _, rfl, _⟩ := h
    cases hi
  | [_, _, _, _, _], h =>
    simp only [List.cons_append, List.nil_append, List.cons.injEq] at h
    obtain ⟨rfl, rfl, rfl, rfl, rfl, rfl, _⟩ := h
    injection ht with ht; subst ht; decide
  | _ :: _ :: _ :: _ :: _ :: _ :: _, h =>
    simp only [List.cons_append, List.cons.injEq] at h
    exact absurd h.2.2.2.2.2.2 (by simp)

/-- RxAbortResult and RxTimeoutResult: each state of a receive in progress, and STOPPED. -/
theorem witness_RxAbortResult :
    (rxAt .idle .none []).rx.state ≠ .stopped ∧ (rxAt .inPacket .none [1#8]).rx.state ≠ .stopped ∧
    (rxAt .escaped .none [1#8]).rx.state ≠ .stopped ∧ State.reset.rx.state = .stopped := by decide

/-- LineByteIsAcceptedOnlyWhileReceiving: while receiving, and after a frame. -/
theorem witness_LineByteIsAcceptedOnlyWhileReceiving :
    (let s := offering (rxAt .idle .none []) [] [0x11#8, 0x22#8] [.agent .lineRx]
     s.rx.state ≠ .stopped ∧ s.env.lineIn = 0x11#8 :: [0x22#8] ∧ s.env.schedule = [.agent .lineRx]) ∧
    (let s := offering (rxAt .stopped .frame exampleFrame) [] [0x11#8, 0x22#8] [.agent .lineRx]
     s.rx.state = .stopped ∧ s.env.lineIn = 0x11#8 :: [0x22#8] ∧
       s.env.schedule = [.agent .lineRx]) := by decide

/-- IdleHuntsForTheStartDelimiter. -/
theorem witness_IdleHuntsForTheStartDelimiter :
    (rxAt .idle .none []).rx.state = .idle ∧ 0xAE#8 ≠ 0xA5#8 := by decide

/-- InPacketLineByte: a full buffer, and one with room for one byte; a start delimiter is a data byte. -/
theorem witness_InPacketLineByte :
    (let s := withParams (rxAt .inPacket .none [1#8, 2#8]) (some 2) 8 7
     s.rx.state = .inPacket ∧ s.params.rxCap = some s.rx.len) ∧
    (let s := withParams (rxAt .inPacket .none [1#8]) (some 2) 8 7
     s.rx.state = .inPacket ∧ s.params.rxCap ≠ some s.rx.len) ∧
    (0xA5#8 ≠ 0xAA#8 ∧ 0xA5#8 ≠ 0xAE#8) := by decide

/-- EscapedLineByte: a full buffer, one with room, and a byte that is no escape code. -/
theorem witness_EscapedLineByte :
    (let s := withParams (rxAt .escaped .none [1#8, 2#8]) (some 2) 8 7
     s.rx.state = .escaped ∧ s.params.rxCap = some s.rx.len) ∧
    (let s := withParams (rxAt .escaped .none [1#8]) (some 2) 8 7
     s.rx.state = .escaped ∧ s.params.rxCap ≠ some s.rx.len) ∧
    (0xAE#8 ≠ 0x05#8 ∧ 0xAE#8 ≠ 0x0A#8 ∧ 0xAE#8 ≠ 0x0E#8) := by decide

/-- ReceivedStreamIsUnstuffed, the frame: noise, a stuffed byte, a buffer it just fits, and a byte behind. -/
theorem witness_ReceivedStreamIsUnstuffed_frame :
    let s := offering (withParams (rxAt .idle .none []) (some 2) 8 7) []
      [0xAE#8, 0xA5#8, 0xAA#8, 0x05#8, 0x01#8, 0xAE#8, 0x11#8] (List.replicate 7 (.agent .lineRx))
    s.rx.state = .idle ∧ 0xA5#8 ∉ [0xAE#8] ∧ 0xAE#8 ∉ [0xAA#8, 0x05#8, 0x01#8] ∧
      s.env.lineIn = [0xAE#8] ++ 0xA5#8 :: ([0xAA#8, 0x05#8, 0x01#8] ++ 0xAE#8 :: [0x11#8]) ∧
      s.env.schedule = List.replicate s.env.lineIn.length (.agent .lineRx) ++ [] ∧
      unstuff [0xAA#8, 0x05#8, 0x01#8] = some [0xA5#8, 0x01#8] ∧
      s.params.rxCap = some [0xA5#8, 0x01#8].length := by decide

/-- ReceivedStreamIsUnstuffed, the invalid escape: inside the region, and by the end delimiter. -/
theorem witness_ReceivedStreamIsUnstuffed_error :
    let s := offering (withParams (rxAt .idle .none []) none 8 7) []
      [0xA5#8, 0xAA#8, 0xAE#8] (List.replicate 3 (.agent .lineRx))
    s.rx.state = .idle ∧ 0xAE#8 ∉ [0xAA#8] ∧
      s.env.lineIn = [] ++ 0xA5#8 :: ([0xAA#8] ++ 0xAE#8 :: []) ∧
      s.env.schedule = List.replicate s.env.lineIn.length (.agent .lineRx) ++ [] ∧
      unstuff [0xAA#8] = none ∧ unstuff [0xAA#8, 0x07#8, 0x01#8] = none ∧ s.params.rxCap = none := by
  decide

/-- ReceivedFrameIsTheBody: a buffer that the body and its field just fit. -/
theorem witness_ReceivedFrameIsTheBody :
    let s := offering (withParams (rxAt .idle .none []) (some 3) 8 3) []
      (frame [0xA5#8] ++ [0x11#8]) (List.replicate 7 (.agent .lineRx))
    s.rx.state = .idle ∧ s.env.lineIn = frame [0xA5#8] ++ [0x11#8] ∧
      s.env.schedule = List.replicate (frame [0xA5#8]).length (.agent .lineRx) ++ [] ∧
      s.params.rxCap = some ([0xA5#8].length + 2) := by decide

/-- ReceiveOutcomeIsKept: RX_START takes an outcome away. -/
theorem witness_ReceiveOutcomeIsKept :
    let s := offering (rxAt .stopped .timeout [1#8]) [0x10000000#32] [] [.agent .command]
    s.rx.state = .stopped ∧ (nextOf (step s)).map (·.rx.result) = some .none := by decide

/-- RxIrqLevel: it falls at RX_START, it rises when a receive is aborted. -/
theorem witness_RxIrqLevel :
    (let s := rxAt .stopped .frame exampleFrame
     rxIrq s.rx = true ∧ (nextOf (exec .rxStart s)).map (fun t => rxIrq t.rx) = some false) ∧
    (let s := rxAt .escaped .none [1#8]
     s.rx.state ≠ .stopped ∧ (nextOf (exec .rxAbort s)).map (·.rx.state) = some .stopped) := by decide

/-- MisalignedReadIsTheAlignedWord: the last address of the read space. -/
theorem witness_MisalignedReadIsTheAlignedWord : 3 < 4 ∧ (0xFFFF#16).toNat = 4 * 0x3FFF + 3 := by decide

/-- StatusFields: the fullest queue. -/
theorem witness_StatusFields : (txAt .idle 0#16 (List.replicate 15 0#8)).tx.queue.length ≤ 15 := by decide

/-- PlainRegisters: the largest values their fields hold, and RX_CAP = infinity. -/
theorem witness_PlainRegisters :
    (let s := withParams State.reset (some 61440) 15 255
     { s.rx with len := 65535 }.len < 65536 ∧ s.params.wf = true ∧ s.params.rxCap = some 61440) ∧
    (let s := withParams State.reset none 5 2
     s.rx.len < 65536 ∧ s.params.wf = true ∧ s.params.rxCap = none) := by decide

/-- RxDataLanes: a stored byte, the first index past it, the first index past RX_CAP, and the last lane of
the read space under RX_CAP = infinity. -/
theorem witness_RxDataLanes :
    (let s := withParams (rxAt .stopped .timeout [0x42#8]) (some 2) 8 7
     4 * 0 + 0 < s.rx.len ∧ s.rx.buf.read? (4 * 0 + 0) = some 0x42#8 ∧ s.rx.len ≤ 4 * 0 + 1 ∧
       s.params.rxCap = some 2 ∧ 1 < 2 ∧ 2 ≤ 4 * 0 + 2) ∧
    (let s := withParams State.reset none 8 7
     0x1000 + 4 * 15359 ≤ 0xFFFC ∧ s.rx.len ≤ 4 * 15359 + 3 ∧ s.params.rxCap = none) := by decide

/-- ReservedAddressesReadZero: both ends of the gap, and the first address past RX_DATA. -/
theorem witness_ReservedAddressesReadZero :
    (0x0018 ≤ (0x0018#16).toNat ∧ (0x0FFF#16).toNat ≤ 0x0FFF) ∧
    (let s := withParams State.reset (some 2) 8 7
     s.params.rxCap = some 2 ∧ 0x1000 + 4 * ((2 + 3) / 4) ≤ (0x1004#16).toNat) := by decide

/-- StaleBytesAreNotSeen: two states that differ in a stale byte and in the draws. -/
theorem witness_StaleBytesAreNotSeen :
    let s := rxAt .stopped .timeout [1#8]
    let t := { s with rx := { s.rx with buf := [(0, 1#8), (1, 9#8)] }, env := { s.env with draws := 7 } }
    t = { s with rx := { s.rx with buf := t.rx.buf }, env := t.env } ∧ s.rx.len = 1 ∧
      t.rx.buf.read? 0 = s.rx.buf.read? 0 ∧ t.rx.buf ≠ s.rx.buf ∧
      (0x0FFF#16).toNat < 0x1000 ∧ 0x1000 ≤ (0x1003#16).toNat ∧
      4 * (((0x1003#16).toNat - 0x1000) / 4) + 0 < s.rx.len ∧
      { t with env := s.env }.env.draws = s.env.draws := by decide

/-- A full buffer of two bytes, whose frame is valid: V-RX-6. -/
def fullFrame : State :=
  offering { withParams (rxAt .stopped .frame [0#8, 0#8]) (some 2) 8 2 with
    rx := { (rxAt .stopped .frame [0#8, 0#8]).rx with check :=
      { sum := 0, field := 0, matchLe := true, matchBe := true, valid := true, trunc := false } } }
    [0x10000000#32] [] [.agent .command]

/-- StepKeepsTheInvariant and OutcomesMapToTheSourceKinds: a state with a valid frame meets the invariant,
and has a step. -/
theorem witness_StepKeepsTheInvariant : fullFrame.Inv ∧ (nextOf (step fullFrame)).isSome = true ∧
    frameUsable fullFrame = true := by
  refine ⟨⟨by decide, by decide, ?_, by decide, by decide, by decide, by decide, by decide, ?_, ?_⟩,
    by decide, by decide⟩
  · intro n hn
    have : 2 = n := Option.some.inj hn
    subst this
    decide
  · intro n hn i hi
    have : 2 = n := Option.some.inj hn
    subst this
    match i with
    | 0 => decide
    | 1 => decide
    | k + 2 => exact absurd hi (by simp [fullFrame, offering, rxAt, cellsFrom, Memory.read?])
  · intro i hi
    match i with
    | 0 => decide
    | 1 => decide
    | k + 2 => exact absurd hi (by show ¬ k + 2 < 2; omega)

/-- OutcomesMapToTheSourceKinds, its last clause: an invariant state without a frame is one of `fullFrame`'s
kind after RX_START. -/
theorem witness_OutcomesMapToTheSourceKinds :
    (nextOf (step fullFrame)).map (fun t => decide (t.rx.result ≠ .frame)) = some true := by decide

/-- UnitsAreIndependent: an event of each unit that leaves the others alone. -/
theorem witness_UnitsAreIndependent :
    touchesTx .rxStart = false ∧ touchesRx .txStart = false ∧ isCkCommand .lineTx = false ∧
    exec .nop State.reset = .next State.reset ∧
    exec (.lineRx 0xA5#8) State.reset = .next State.reset := by
  refine ⟨by decide, by decide, by decide, rfl, rfl⟩

end Sys2Proof.Tests
end

namespace Sys2Proof.Machine

/-! ### The events and the units they write (spec/20_memory.md R67) -/

/-- A TX command records a sequence error, or emits bytes into the transmit unit if they fit; the second
form covers the one that waits, with the unit unchanged (R133 to R135, R141, R204). -/
theorem exec_txCommand_cases {i : Instr} {s t : State} (hi : isTxCommand i = true) (h : exec i s = .next t) :
    (∃ e, t = s.withCmdErr e) ∨ ∃ u, t = s.withTx u := by
  have sequence : ∃ e, s.cmdError .sequence = s.withCmdErr e := ⟨_, s.cmdError_eq .sequence⟩
  have transmit (xs u) : ∃ u', s.transmit xs u = s.withTx u' := by
    rcases s.transmit_cases xs u with ⟨_, e⟩ | ⟨_, e⟩
    · exact ⟨_, e⟩
    · exact ⟨s.tx, e⟩
  cases i <;> simp only [isTxCommand, reduceCtorEq] at hi
  case txStart | txData | txEnd =>
    simp only [exec, execTxStart, execTxData, execTxEnd] at h
    split at h <;> cases h
    · exact .inl sequence
    · exact .inr (transmit _ _)

/-- LINE_TX takes the head of the queue to the line, or finds the queue empty and changes nothing (R140). -/
theorem exec_lineTx_cases {s t : State} (h : exec .lineTx s = .next t) :
    (s.tx.queue = [] ∧ t = s) ∨
    ∃ b rest, s.tx.queue = b :: rest ∧
      t = (s.withTx { s.tx with queue := rest }).withEnv { s.env with lineOut := s.env.lineOut ++ [b] } := by
  simp only [exec, execLineTx] at h
  split at h <;> cases h
  · exact .inl ⟨‹_›, rfl⟩
  · exact .inr ⟨_, _, ‹_›, rfl⟩

/-- RX_ABORT ends a receive in progress and is without effect in STOPPED (R166). -/
theorem exec_rxAbort_eq (s : State) :
    exec .rxAbort s = .next (if s.rx.state = .stopped then s else s.withRx (s.rx.finish .aborted)) := by
  cases hs : s.rx.state <;> simp [exec, execRxAbort, RxUnit.receiving, hs]

/-- LINE_RX hands its byte to a receive in progress and is without effect in STOPPED (R170, R181). -/
theorem exec_lineRx_eq (b : Byte) (s : State) :
    exec (.lineRx b) s =
      .next (if s.rx.state = .stopped then s else s.withRx (s.rx.takeByte s.params b)) := by
  cases hs : s.rx.state <;> simp [exec, execLineRx, RxUnit.receiving, hs]

/-- RX_TIMEOUT ends a receive in progress and is without effect in STOPPED (R184). -/
theorem exec_rxTimeout_eq (s : State) :
    exec .rxTimeout s = .next (if s.rx.state = .stopped then s else s.withRx (s.rx.finish .timeout)) := by
  cases hs : s.rx.state <;> simp [exec, execRxTimeout, RxUnit.receiving, hs]

/-- Every event that writes the receive unit: RX_START begins a receive, the other three have no effect in
STOPPED and else end the receive or take the byte. -/
theorem exec_touchesRx_cases {i : Instr} {s t : State} (hi : touchesRx i = true) (h : exec i s = .next t) :
    (i = .rxStart ∧ t = s.withRx
      { state := .idle, result := .none, buf := s.rx.buf, len := 0, check := Validation.clear }) ∨
    (s.rx.state = .stopped ∧ t = s) ∨
    (s.rx.state ≠ .stopped ∧
      ((i = .rxAbort ∧ t = s.withRx (s.rx.finish .aborted)) ∨
       (i = .rxTimeout ∧ t = s.withRx (s.rx.finish .timeout)) ∨
       ∃ b, i = .lineRx b ∧ t = s.withRx (s.rx.takeByte s.params b))) := by
  cases i <;> simp only [touchesRx, reduceCtorEq] at hi
  case rxStart => cases h; exact .inl ⟨rfl, rfl⟩
  case rxAbort =>
    rw [exec_rxAbort_eq] at h
    split at h <;> cases h
    · exact .inr (.inl ⟨‹_›, rfl⟩)
    · exact .inr (.inr ⟨‹_›, .inl ⟨rfl, rfl⟩⟩)
  case lineRx b =>
    rw [exec_lineRx_eq] at h
    split at h <;> cases h
    · exact .inr (.inl ⟨‹_›, rfl⟩)
    · exact .inr (.inr ⟨‹_›, .inr (.inr ⟨b, rfl, rfl⟩)⟩)
  case rxTimeout =>
    rw [exec_rxTimeout_eq] at h
    split at h <;> cases h
    · exact .inr (.inl ⟨‹_›, rfl⟩)
    · exact .inr (.inr ⟨‹_›, .inr (.inl ⟨rfl, rfl⟩)⟩)

/-- Every event but RESET writes at most one unit, the one it belongs to, besides `cmd_err` and what
surrounds the block (R67). -/
theorem exec_writes_at_most_one_unit {i : Instr} {s t : State} (h : exec i s = .next t) :
    (∃ e, t = s.withCmdErr e) ∨
    (∃ v, t = s.withEnv v) ∨
    (touchesTx i = true ∧ ∃ u v, t = (s.withTx u).withEnv v) ∨
    (touchesRx i = true ∧ ∃ u, t = s.withRx u) ∨
    (isCkCommand i = true ∧ ∃ u, t = s.withCk u) ∨
    (i = .reset ∧ t = s.resetBlock) := by
  have txUnit (hi : isTxCommand i = true) :
      (∃ e, t = s.withCmdErr e) ∨ (touchesTx i = true ∧ ∃ u v, t = (s.withTx u).withEnv v) := by
    rcases exec_txCommand_cases hi h with he | ⟨u, rfl⟩
    · exact .inl he
    · exact .inr ⟨by simp [touchesTx, hi], u, s.env, rfl⟩
  have rxUnit (hi : touchesRx i = true) : ∃ u, t = s.withRx u := by
    rcases exec_touchesRx_cases hi h with
      ⟨_, e⟩ | ⟨_, e⟩ | ⟨_, ⟨_, e⟩ | ⟨_, e⟩ | ⟨_, _, e⟩⟩
    · exact ⟨_, e⟩
    · exact ⟨s.rx, e⟩
    all_goals exact ⟨_, e⟩
  cases i
  case nop => cases h; exact .inl ⟨s.cmdErr, rfl⟩
  case errClear => cases h; exact .inl ⟨_, rfl⟩
  case read addr => cases h; exact .inr (.inl ⟨_, rfl⟩)
  case txStart | txData | txEnd => exact (txUnit rfl).imp_right fun u => .inr (.inl u)
  case lineTx =>
    refine .inr (.inr (.inl ⟨rfl, ?_⟩))
    rcases exec_lineTx_cases h with ⟨_, rfl⟩ | ⟨_, _, _, rfl⟩
    · exact ⟨_, _, rfl⟩
    · exact ⟨_, _, rfl⟩
  case rxStart | rxAbort | lineRx | rxTimeout =>
    exact .inr (.inr (.inr (.inl ⟨rfl, rxUnit rfl⟩)))
  case ckClear | ckAdd | ckVerify =>
    cases h; exact .inr (.inr (.inr (.inr (.inl ⟨rfl, _, rfl⟩))))
  case reset => cases h; exact .inr (.inr (.inr (.inr (.inr ⟨rfl, rfl⟩))))

/-! ### The parameters (R37, R58) -/

/-- The parameters lie in no unit, so no event writes them (R37). -/
theorem exec_params {i : Instr} {s t : State} (h : exec i s = .next t) : t.params = s.params := by
  rcases exec_writes_at_most_one_unit h with
    ⟨_, rfl⟩ | ⟨_, rfl⟩ | ⟨_, _, _, rfl⟩ | ⟨_, _, rfl⟩ | ⟨_, _, rfl⟩ | ⟨_, rfl⟩ <;> simp

/-- No step writes the parameters, whether its event is run, rejected or absent (R37). -/
theorem step_params {s t : State} (h : step s = .next t) : t.params = s.params := by
  rcases step_cases s with ⟨_, e⟩ | ⟨g, _, _, e⟩ | ⟨g, _, c, _, _, _, e⟩ | ⟨g, _, i, _, _, _, e⟩ <;>
    rw [e] at h
  case inr.inr.inr => simpa using exec_params h
  all_goals cases h; simp

/-- PARAMS is the word at 0x0014 (R51). -/
theorem memRead_params (s : State) : memRead s 0x0014#16 = paramsWord s := rfl

/-- What PARAMS shows is a function of the parameters alone (R58). -/
theorem paramsWord_congr {s t : State} (h : t.params = s.params) : paramsWord t = paramsWord s := by
  simp only [paramsWord, h]

/-- Settles O11: no event writes the parameters, and PARAMS shows nothing else. -/
theorem parametersNeverChange : Obligations.ParametersNeverChange := by
  intro s t h
  have hp : t.params = s.params := step_params h
  exact ⟨hp, by rw [memRead_params, memRead_params, paramsWord_congr hp]⟩

/-! ### The outcome of a receive, and `rx_irq` (R34) -/

theorem rxIrq_iff (rx : RxUnit) : rxIrq rx = true ↔ rx.result ≠ .none := by simp [rxIrq]

/-- STATUS is the word at 0x0000 (R51). -/
theorem memRead_status (s : State) : memRead s 0x0000#16 = statusWord s := rfl

/-- RX_DONE, bit 28 of STATUS, is `rx_irq` (R52). Writing the width 32 as the sum of the field widths lets the
lemmas about `++` skip the fields below bit 28. -/
theorem statusWord_rxDone (s : State) : (statusWord s).extractLsb' 28 1 = flagBit (rxIrq s.rx) := by
  change BitVec.extractLsb' (n := 3+1 +2+2 +2+1+1 +1+1+1+1 +1+3 +2+2 +4 +3+1) 28 1 _ = _
  unfold statusWord
  simp only [BitVec.extractLsb'_append_eq_of_le, Nat.reduceLeDiff, Nat.reduceSub]
  rw [BitVec.extractLsb'_append_eq_of_add_le (Nat.le_refl 1), BitVec.extractLsb'_eq_self]

theorem flagBit_eq_one (b : Bool) : flagBit b = 1#1 ↔ b = true := by cases b <;> decide

/-- A byte taken by a receive in progress lets it go on with its result as it was, or ends it with an
outcome (R171 to R177). -/
theorem RxUnit.takeByte_outcome {rx : RxUnit} (p : Config.Params) (b : Byte) (hr : rx.state ≠ .stopped) :
    ((rx.takeByte p b).state ≠ .stopped ∧ (rx.takeByte p b).result = rx.result) ∨
    ((rx.takeByte p b).state = .stopped ∧ (rx.takeByte p b).result ≠ .none) := by
  rcases rx.takeByte_cases p b with ⟨hs, _⟩ | ⟨_, _, e⟩ | ⟨_, _, e⟩ | ⟨_, _, e⟩ | ⟨_, _, e⟩ |
    ⟨_, _, _, _, e⟩ | ⟨_, _, _, _, e⟩ | ⟨_, _, e⟩ | ⟨_, _, _, _, e⟩ | ⟨_, _, _, _, e⟩
  · exact absurd hs hr
  all_goals rw [e]; simp [hr]

/-- What an event makes of the outcome: RX_START and RESET take it away; every other event keeps it, or ends
a receive in progress with one. -/
theorem exec_rx_outcome_cases {i : Instr} {s t : State} (h : exec i s = .next t) :
    (i = .rxStart ∧ t.rx.state = .idle ∧ t.rx.result = .none) ∨
    (i = .reset ∧ t.rx.state = .stopped ∧ t.rx.result = .none) ∨
    ((t.rx.state = .stopped ↔ s.rx.state = .stopped) ∧ t.rx.result = s.rx.result) ∨
    (s.rx.state ≠ .stopped ∧ t.rx.state = .stopped ∧ t.rx.result ≠ .none) := by
  rcases exec_writes_at_most_one_unit h with
    ⟨_, rfl⟩ | ⟨_, rfl⟩ | ⟨_, _, _, rfl⟩ | ⟨hi, _⟩ | ⟨_, _, rfl⟩ | ⟨hi, rfl⟩
  case inr.inr.inr.inl =>
    rcases exec_touchesRx_cases hi h with
      ⟨rfl, rfl⟩ | ⟨_, rfl⟩ | ⟨hr, ⟨_, rfl⟩ | ⟨_, rfl⟩ | ⟨b, _, rfl⟩⟩
    · exact .inl ⟨rfl, rfl, rfl⟩
    · exact .inr (.inr (.inl ⟨Iff.rfl, rfl⟩))
    · exact .inr (.inr (.inr ⟨hr, rfl, by simp⟩))
    · exact .inr (.inr (.inr ⟨hr, rfl, by simp⟩))
    · rcases RxUnit.takeByte_outcome s.params b hr with ⟨hs, he⟩ | ⟨hs, he⟩
      · exact .inr (.inr (.inl ⟨iff_of_false hs hr, he⟩))
      · exact .inr (.inr (.inr ⟨hr, hs, he⟩))
  case inr.inr.inr.inr.inr => exact .inr (.inl ⟨hi, rfl, rfl⟩)
  all_goals exact .inr (.inr (.inl ⟨Iff.rfl, rfl⟩))

/-- `rx_irq` falls only at RX_START or RESET (R34). -/
theorem rxIrq_falls_only_at_rxStart_or_reset {i : Instr} {s t : State} (h : exec i s = .next t)
    (hs : rxIrq s.rx = true) (ht : rxIrq t.rx = false) : i = .rxStart ∨ i = .reset := by
  have ht : t.rx.result = .none := by simpa [rxIrq] using ht
  rcases exec_rx_outcome_cases h with ⟨hi, _⟩ | ⟨hi, _⟩ | ⟨_, he⟩ | ⟨_, _, he⟩
  · exact .inl hi
  · exact .inr hi
  · exact absurd (he ▸ ht) ((rxIrq_iff _).mp hs)
  · exact absurd ht he

/-- Every event but RESET that ends a receive leaves `rx_irq` high (R34). -/
theorem rxIrq_of_receive_ends {i : Instr} {s t : State} (h : exec i s = .next t)
    (hs : s.rx.state ≠ .stopped) (ht : t.rx.state = .stopped) (hi : i ≠ .reset) :
    rxIrq t.rx = true := by
  rw [rxIrq_iff]
  rcases exec_rx_outcome_cases h with ⟨_, hidle, _⟩ | ⟨hr, _⟩ | ⟨hkept, _⟩ | ⟨_, _, he⟩
  · rw [hidle] at ht; cases ht
  · exact absurd hr hi
  · exact absurd (hkept.mp ht) hs
  · exact he

/-- Settles O46: RX_DONE is read off the layout of STATUS, and both edges follow from what an event can make
of the outcome. -/
theorem rxIrqLevel : Obligations.RxIrqLevel := by
  refine ⟨fun s => ⟨rxIrq_iff s.rx, ?_⟩,
    fun i s t h => ⟨rxIrq_falls_only_at_rxStart_or_reset h, rxIrq_of_receive_ends h⟩,
    fun s => ⟨_, rfl, rfl⟩, fun s => ⟨_, rfl, rfl⟩⟩
  rw [memRead_status, statusWord_rxDone, flagBit_eq_one, rxIrq_iff]

end Sys2Proof.Machine

namespace Sys2Proof.Machine

/-! ### The units are independent (spec/20_memory.md R67) -/

/-- The events at the other ports, whatever they do to their own units, leave `cmd_err` (R67). -/
theorem exec_otherPorts_cmdErr {i : Instr} {s t : State} (h : exec i s = .next t)
    (hi : (∃ b, i = .lineRx b) ∨ i = .lineTx ∨ (∃ a, i = .read a) ∨ i = .rxTimeout) :
    t.cmdErr = s.cmdErr := by
  rcases hi with ⟨b, rfl⟩ | rfl | ⟨a, rfl⟩ | rfl
  · rw [exec_lineRx_eq] at h
    split at h <;> cases h <;> rfl
  · rcases exec_lineTx_cases h with ⟨_, rfl⟩ | ⟨_, _, _, rfl⟩ <;> rfl
  · cases h; rfl
  · rw [exec_rxTimeout_eq] at h
    split at h <;> cases h <;> rfl

/-- Settles O58: every event but RESET writes at most its own unit, and the events at the other ports leave
`cmd_err`. -/
theorem unitsAreIndependent : Obligations.UnitsAreIndependent := by
  intro i s t h hi
  have cmdErr := exec_otherPorts_cmdErr h
  rcases exec_writes_at_most_one_unit h with
    ⟨_, rfl⟩ | ⟨_, rfl⟩ | ⟨htx, _, _, rfl⟩ | ⟨hrx, _, rfl⟩ | ⟨hck, _, rfl⟩ | ⟨hreset, _⟩
  · exact ⟨fun _ => rfl, fun _ => rfl, fun _ => rfl, cmdErr⟩
  · exact ⟨fun _ => rfl, fun _ => rfl, fun _ => rfl, cmdErr⟩
  · exact ⟨fun hno => absurd htx (by simp [hno]), fun _ => rfl, fun _ => rfl, cmdErr⟩
  · exact ⟨fun _ => rfl, fun hno => absurd hrx (by simp [hno]), fun _ => rfl, cmdErr⟩
  · exact ⟨fun _ => rfl, fun _ => rfl, fun hno => absurd hck (by simp [hno]), cmdErr⟩
  · exact absurd hreset hi

/-! ### The aligned address of a read (R55, R61) -/

/-- Clearing the low two bits of an address leaves the start of the aligned word around it (R55). -/
theorem alignedAddr_toNat (a : Half) : (a &&& 0xFFFC#16).toNat = 4 * (a.toNat / 4) := by
  have hmask : a &&& 0xFFFC#16 = (a >>> 2) <<< 2 := by
    ext i hi
    have hbit : ∀ i < 16, (0xFFFC#16).getLsbD i = !decide (i < 2) := by decide
    rw [BitVec.getElem_and, ← BitVec.getLsbD_eq_getElem hi, ← BitVec.getLsbD_eq_getElem hi, hbit i hi,
      BitVec.getElem_shiftLeft]
    rcases Nat.lt_or_ge i 2 with h | h
    · simp [h]
    · simp [h, Nat.not_lt.mpr h]
  rw [hmask, BitVec.toNat_shiftLeft, BitVec.toNat_ushiftRight, Nat.shiftRight_eq_div_pow, Nat.shiftLeft_eq]
  have := a.isLt
  omega

/-- A read shows the word of the read space that contains the address (R55). -/
theorem memRead_eq (s : State) (a : Half) : memRead s a = wordAt s (4 * (a.toNat / 4)) := by
  rw [memRead, alignedAddr_toNat]

/-- Settles O48: both addresses lie in the word at `4 * k`. -/
theorem misalignedReadIsTheAlignedWord : Obligations.MisalignedReadIsTheAlignedWord := by
  intro s a k j hj ha
  have hk : (BitVec.ofNat 16 (4 * k)).toNat = 4 * k := by
    rw [BitVec.toNat_ofNat]; have := a.isLt; omega
  rw [memRead_eq, memRead_eq, hk, ha]
  congr 1
  omega

/-! ### STATUS (R52) -/

/-- A one-bit field that shows a flag is that flag. -/
theorem getLsbD_of_extractLsb'_flagBit {n k : Nat} {w : BitVec n} {b : Bool}
    (h : w.extractLsb' k 1 = flagBit b) : w.getLsbD k = b := by
  have hbit := congrArg (·.getLsbD 0) h
  simpa [flagBit] using hbit

/-- The layout of STATUS: each field by its first bit and its width (R52). Writing the width 32 as the sum of
the field widths lets the lemmas about `++` skip the fields below the one that is read. -/
theorem statusWord_layout (s : State) :
    (statusWord s).extractLsb' 0 1 = s.tx.state.code ∧
    (statusWord s).extractLsb' 1 3 = 0#3 ∧
    (statusWord s).extractLsb' 4 4 = BitVec.ofNat 4 s.tx.queue.length ∧
    (statusWord s).extractLsb' 8 2 = s.rx.state.code ∧
    (statusWord s).extractLsb' 10 2 = 0#2 ∧
    (statusWord s).extractLsb' 12 3 = s.rx.result.code ∧
    (statusWord s).extractLsb' 15 1 = 0#1 ∧
    (statusWord s).extractLsb' 16 1 = flagBit s.rx.check.matchLe ∧
    (statusWord s).extractLsb' 17 1 = flagBit s.rx.check.matchBe ∧
    (statusWord s).extractLsb' 18 1 = flagBit s.rx.check.valid ∧
    (statusWord s).extractLsb' 19 1 = flagBit s.rx.check.trunc ∧
    (statusWord s).extractLsb' 20 1 = flagBit s.ck.matchLe ∧
    (statusWord s).extractLsb' 21 1 = flagBit s.ck.matchBe ∧
    (statusWord s).extractLsb' 22 2 = 0#2 ∧
    (statusWord s).extractLsb' 24 2 = s.cmdErr.code ∧
    (statusWord s).extractLsb' 26 2 = 0#2 ∧
    (statusWord s).extractLsb' 29 3 = 0#3 := by
  and_intros
  all_goals
    change BitVec.extractLsb' (n := 3+1 +2+2 +2+1+1 +1+1+1+1 +1+3 +2+2 +4 +3+1) _ _ _ = _
    unfold statusWord
    simp only [BitVec.extractLsb'_append_eq_of_le, Nat.reduceLeDiff, Nat.reduceSub,
      BitVec.extractLsb'_append_eq_right, BitVec.extractLsb'_eq_self]

/-- Settles O49: the layout of STATUS, with the codes and the flags read off its fields. -/
theorem statusFields : Obligations.StatusFields := by
  intro s hq
  obtain ⟨txBody, z1, txqCount, rxState, z10, rxResult, z15, matchLe, matchBe, valid, trunc, ckLe, ckBe,
    z22, cmdErr, z26, z29⟩ := statusWord_layout s
  have rxDone := getLsbD_of_extractLsb'_flagBit (statusWord_rxDone s)
  refine ⟨statusWord s, memRead_status s, txBody, z1, ?_, rxState, z10, rxResult, z15,
    getLsbD_of_extractLsb'_flagBit matchLe, getLsbD_of_extractLsb'_flagBit matchBe,
    getLsbD_of_extractLsb'_flagBit valid, getLsbD_of_extractLsb'_flagBit trunc,
    getLsbD_of_extractLsb'_flagBit ckLe, getLsbD_of_extractLsb'_flagBit ckBe,
    z22, cmdErr, z26, ?_, z29⟩
  · rw [txqCount, BitVec.toNat_ofNat, Nat.mod_eq_of_lt (by omega)]
  · rw [rxDone, rxIrq_iff]

/-! ### The plain registers (R53, R54, R56 to R58) -/

theorem memRead_rxLen (s : State) : memRead s 0x0004#16 = rxLenWord s := rfl
theorem memRead_rxCheck (s : State) : memRead s 0x0008#16 = rxCheckWord s := rfl
theorem memRead_txSum (s : State) : memRead s 0x000C#16 = txSumWord s := rfl
theorem memRead_ckAcc (s : State) : memRead s 0x0010#16 = ckAccWord s := rfl

/-- The value of two fields side by side. -/
theorem append_toNat_eq_add {m n : Nat} (hi : BitVec m) (lo : BitVec n) :
    (hi ++ lo).toNat = lo.toNat + 2 ^ n * hi.toNat := by
  rw [BitVec.toNat_append, ← Nat.shiftLeft_add_eq_or_of_lt lo.isLt, Nat.shiftLeft_eq, Nat.mul_comm,
    Nat.add_comm]

/-- A field above which every bit is reserved is the value of its word. -/
theorem zero_append_toNat (m : Nat) {n : Nat} (lo : BitVec n) : (0#m ++ lo).toNat = lo.toNat := by
  simp

theorem rxLenField_toNat {n : Nat} (h : n < 65536) : (rxLenField n).toNat = n := by
  rw [rxLenField, if_pos h, BitVec.toNat_ofNat, Nat.mod_eq_of_lt h]

/-- The ranges of the legal parameters, as inequalities (R7). -/
theorem params_wf_iff (p : Config.Params) : p.wf = true ↔
    (∀ n, p.rxCap = some n → 2 ≤ n ∧ n ≤ 61440) ∧ (5 ≤ p.txqDepth ∧ p.txqDepth ≤ 15) ∧
      (2 ≤ p.minLen ∧ p.minLen ≤ 255) := by
  cases h : p.rxCap <;>
    simp [Config.Params.wf, Config.Params.rxCapLegal, Config.Params.txqDepthLegal,
      Config.Params.minLenLegal, h, and_assoc]

/-- PARAMS shows TXQ_DEPTH and MIN_LEN whole, above the field of RX_CAP (R58). -/
theorem paramsWord_toNat {s : State} (h : s.params.wf = true) : (paramsWord s).toNat =
    (rxCapField s.params).toNat + 65536 * s.params.txqDepth + 16777216 * s.params.minLen := by
  obtain ⟨_, ⟨_, hdepth⟩, _, hmin⟩ := (params_wf_iff s.params).mp h
  simp only [paramsWord, append_toNat_eq_add, BitVec.toNat_ofNat]
  omega

theorem rxCapField_toNat_some {p : Config.Params} (h : p.wf = true) {n : Nat} (hn : p.rxCap = some n) :
    (rxCapField p).toNat = n := by
  obtain ⟨_, hcap⟩ := ((params_wf_iff p).mp h).1 n hn
  simp only [rxCapField, hn, BitVec.toNat_ofNat]
  omega

theorem rxCapField_toNat_none {p : Config.Params} (hn : p.rxCap = none) : (rxCapField p).toNat = 0 := by
  simp [rxCapField, hn]

/-- Settles O50: each register is its fields side by side, and legal values fit their fields. -/
theorem plainRegisters : Obligations.PlainRegisters := by
  intro s hlen hwf
  rw [memRead_rxLen, memRead_rxCheck, memRead_txSum, memRead_ckAcc, memRead_params, paramsWord_toNat hwf]
  refine ⟨?_, ?_, ?_, ?_, ?_, ?_⟩
  · rw [rxLenWord, zero_append_toNat, rxLenField_toNat hlen]
  · exact append_toNat_eq_add s.rx.check.field s.rx.check.sum
  · rw [txSumWord, zero_append_toNat]
  · rw [ckAccWord, zero_append_toNat]
  · intro n hn
    rw [rxCapField_toNat_some hwf hn]
  · intro hn
    rw [rxCapField_toNat_none hn, Nat.zero_add]

/-! ### RX_DATA (R59) -/

/-- The address of an RX_DATA word shows it. -/
theorem memRead_rxData (s : State) {k : Nat} (hk : 0x1000 + 4 * k ≤ 0xFFFC) :
    memRead s (BitVec.ofNat 16 (0x1000 + 4 * k)) = rxDataWord s k := by
  have haddr : 4 * ((BitVec.ofNat 16 (0x1000 + 4 * k)).toNat / 4) = 0x1000 + 4 * k := by
    rw [BitVec.toNat_ofNat]; omega
  rw [memRead_eq, haddr]
  unfold wordAt
  iterate 7 rw [if_neg (by omega)]
  congr 1
  omega

/-- Byte `j` of an RX_DATA word is lane `j`, with its own draw (R59). -/
theorem rxDataWord_lane (s : State) (k : Nat) {j : Nat} (hj : j < 4) :
    (rxDataWord s k).extractLsb' (8 * j) 8 = rxLane s (s.env.draws + j) (4 * k + j) := by
  change BitVec.extractLsb' (n := 8 + 8 + 8 + 8) _ _ _ = _
  unfold rxDataWord
  match j with
  | 0 | 1 | 2 | 3 =>
    simp only [BitVec.extractLsb'_append_eq_of_le, Nat.reduceLeDiff, Nat.reduceSub, Nat.reduceMul,
      BitVec.extractLsb'_append_eq_right, BitVec.extractLsb'_eq_self, Nat.add_zero]

theorem withinCap_iff (p : Config.Params) (i : Nat) :
    withinCap p i = true ↔ ∀ n, p.rxCap = some n → i < n := by
  cases h : p.rxCap <;> simp [withinCap, h]

/-- A lane below `rx_len` and RX_CAP shows the byte stored at its index (R59). -/
theorem rxLane_stored {s : State} {i : Nat} {v : Byte} (draw : Nat) (hcap : withinCap s.params i = true)
    (hlen : i < s.rx.len) (hv : s.rx.buf.read? i = some v) : rxLane s draw i = v := by
  simp [rxLane, hcap, hlen, Memory.byteAt, hv]

/-- A lane at RX_CAP or above reads 0 (R59). -/
theorem rxLane_beyondCap {s : State} {i : Nat} (draw : Nat) (hcap : withinCap s.params i = false) :
    rxLane s draw i = 0#8 := by
  simp [rxLane, hcap]

/-- Settles O51: each byte of the word is a lane, which shows its stored byte below `rx_len` and 0 from
RX_CAP up. -/
theorem rxDataLanes : Obligations.RxDataLanes := by
  intro s k j hk hj
  rw [memRead_rxData s hk, rxDataWord_lane s k hj]
  refine ⟨_, rfl, fun hlen hcap v hv => ?_, fun n hn hle => ?_⟩
  · exact rxLane_stored _ ((withinCap_iff _ _).mpr hcap) hlen hv
  · exact rxLane_beyondCap _ (by simp [withinCap, hn, hle])

end Sys2Proof.Machine

namespace Sys2Proof

/-! ### The opcode map (spec/30_encoding.md R81 to R83) -/

/-- The OP column of R82. -/
def Op.code : Op → Byte
  | .nop => 0x00#8
  | .txStart => 0x01#8
  | .txData => 0x02#8
  | .txEnd => 0x03#8
  | .rxStart => 0x10#8
  | .rxAbort => 0x11#8
  | .ckClear => 0x20#8
  | .ckAdd => 0x21#8
  | .ckVerify => 0x22#8
  | .errClear => 0x30#8

theorem Op.ofByte_eq_some_iff (b : Byte) (op : Op) : Op.ofByte b = some op ↔ b = op.code := by
  constructor
  · intro h
    unfold Op.ofByte at h
    split_ifs at h <;> cases h <;> assumption
  · rintro rfl
    cases op <;> rfl

/-- No two operations share an OP value. -/
theorem Op.code_inj {op op' : Op} : op.code = op'.code ↔ op = op' := by
  rw [← Op.ofByte_eq_some_iff, (Op.ofByte_eq_some_iff _ op).mpr rfl, Option.some_inj]

/-- Some operation is one of the ten. -/
theorem Op.exists_iff {p : Op → Prop} : (∃ op, p op) ↔
    p .nop ∨ p .txStart ∨ p .txData ∨ p .txEnd ∨ p .rxStart ∨ p .rxAbort ∨ p .ckClear ∨ p .ckAdd ∨
      p .ckVerify ∨ p .errClear := by
  constructor
  · rintro ⟨op, h⟩
    cases op <;> simp [h]
  · rintro (h | h | h | h | h | h | h | h | h | h) <;> exact ⟨_, h⟩

/-- A word is its OP above the 24 bits of its IMM (R81). -/
theorem opField_append_imm (w : Word) : opField w ++ w.extractLsb' 0 24 = w :=
  (BitVec.extractLsb'_append_extractLsb'_eq_extractLsb' rfl).trans BitVec.extractLsb'_eq_self

/-- The match of a row is its OP above a zero IMM (R82). -/
theorem Op.row_base (op : Op) : op.row.base = op.code ++ 0#24 := by cases op <;> rfl

/-- The reserved bits lie in IMM (R83). -/
theorem Op.reserved_eq (op : Op) : op.reserved = 0#8 ++ op.reserved.setWidth 24 := by cases op <;> rfl

/-- The mask of a row is the whole OP and the reserved bits of IMM (R82, R83). -/
theorem Op.row_mask (op : Op) : op.row.mask = BitVec.allOnes 8 ++ op.reserved.setWidth 24 := by
  cases op <;> rfl

/-- Two words made of two fields are equal field by field. -/
theorem append_eq_append_iff {m n : Nat} {x x' : BitVec m} {y y' : BitVec n} :
    x ++ y = x' ++ y' ↔ x = x' ∧ y = y' := by
  refine ⟨fun h => ?_, by rintro ⟨rfl, rfl⟩; rfl⟩
  have hx : x = x' := by
    simpa [BitVec.extractLsb'_append_eq_left] using congrArg (·.extractLsb' n m) h
  subst hx
  exact ⟨rfl, (BitVec.append_right_inj x).mp h⟩

theorem and_reserved_eq_zero_iff (w : Word) (op : Op) :
    w &&& op.reserved = 0#32 ↔ w.extractLsb' 0 24 &&& op.reserved.setWidth 24 = 0#24 := by
  conv_lhs => rw [← opField_append_imm w, op.reserved_eq, BitVec.and_append, BitVec.and_zero,
    ← BitVec.zero_append_zero (v := 8) (w := 24), BitVec.append_right_inj]

/-- A word matches a row when it has the row's OP and none of its reserved bits (R82, R83). -/
theorem matches_row_iff (w : Word) (op : Op) :
    w &&& op.row.mask = op.row.base ↔ opField w = op.code ∧ w &&& op.reserved = 0#32 := by
  rw [and_reserved_eq_zero_iff, ← append_eq_append_iff, ← op.row_base]
  conv_lhs => rw [← opField_append_imm w, op.row_mask, BitVec.and_append, BitVec.and_allOnes]

/-! ### What a command word decodes to (spec/30_encoding.md R82 to R84) -/

theorem decode_of_assigned {w : Word} {op : Op} (h : opField w = op.code) :
    decode (.command w) = if w &&& op.reserved = 0#32 then .ok (op.instr w) else .error .rsvdBits := by
  rw [decode, decodeCommand, (Op.ofByte_eq_some_iff _ op).mpr h]

theorem decode_of_unassigned {w : Word} (h : ∀ op : Op, opField w ≠ op.code) :
    decode (.command w) = .error .unknownOp := by
  have hnone : Op.ofByte (opField w) = none :=
    Option.eq_none_iff_forall_ne_some.mpr fun op hop => h op ((Op.ofByte_eq_some_iff _ op).mp hop)
  rw [decode, decodeCommand, hnone]

/-- A word decodes to the instruction of the row it matches, and to nothing else (R82). -/
theorem decode_eq_ok_iff (w : Word) (i : Instr) : decode (.command w) = .ok i ↔
    ∃ op : Op, w &&& op.row.mask = op.row.base ∧ i = op.instr w := by
  simp only [matches_row_iff, and_assoc]
  by_cases h : ∃ op : Op, opField w = op.code
  · obtain ⟨op, hop⟩ := h
    simp only [decode_of_assigned hop, hop, Op.code_inj, exists_eq_left']
    by_cases hr : w &&& op.reserved = 0#32 <;> simp [hr, eq_comm]
  · rw [decode_of_unassigned (not_exists.mp h)]
    exact iff_of_false (by simp) fun ⟨op, hop, _⟩ => h ⟨op, hop⟩

/-- A word decodes when it matches a row (R82). -/
theorem exists_decode_eq_ok_iff (w : Word) : (∃ i, decode (.command w) = .ok i) ↔
    ∃ op : Op, w &&& op.row.mask = op.row.base := by
  simp only [decode_eq_ok_iff]
  exact ⟨fun ⟨_, op, hm, _⟩ => ⟨op, hm⟩, fun ⟨op, hm⟩ => ⟨_, op, hm, rfl⟩⟩

theorem decode_eq_unknownOp_iff (w : Word) :
    decode (.command w) = .error .unknownOp ↔ ∀ op : Op, opField w ≠ op.code := by
  refine ⟨fun h op hop => ?_, decode_of_unassigned⟩
  rw [decode_of_assigned hop] at h
  split at h <;> cases h

theorem decode_eq_rsvdBits_iff (w : Word) : decode (.command w) = .error .rsvdBits ↔
    ∃ op : Op, opField w = op.code ∧ w &&& op.reserved ≠ 0#32 := by
  by_cases h : ∃ op : Op, opField w = op.code
  · obtain ⟨op, hop⟩ := h
    simp only [decode_of_assigned hop, hop, Op.code_inj, exists_eq_left']
    by_cases hr : w &&& op.reserved = 0#32 <;> simp [hr]
  · rw [decode_of_unassigned (not_exists.mp h)]
    exact iff_of_false (by simp) fun ⟨op, hop, _⟩ => h ⟨op, hop⟩

end Sys2Proof

namespace Sys2Proof.Machine

/-- The mask of a row with no operand bits leaves the word as it is (R82). -/
theorem and_fullMask (w : Word) : w &&& 0xFFFFFFFF#32 = w := BitVec.and_allOnes

/-- Settles O1: a word decodes to the instruction of the row it matches, read off for each of the ten rows. -/
theorem commandWordsMatchTheirRows : Obligations.CommandWordsMatchTheirRows := by
  intro w
  refine ⟨?_, ?_, ?_, ?_, ?_, ?_, ?_, ?_, ?_, ?_, ?someRow⟩
  case someRow =>
    rw [exists_decode_eq_ok_iff]
    simp only [Op.exists_iff, Op.row, and_fullMask, List.mem_cons, List.not_mem_nil, or_false, or_assoc]
    exact iff_of_eq (by ac_rfl)
  all_goals simp [decode_eq_ok_iff, Op.exists_iff, Op.row, Op.instr, immLow, immHigh]

theorem mem_assignedOps_iff (b : Byte) : b ∈ assignedOps ↔ ∃ op : Op, b = op.code := by
  simp [assignedOps, Op.exists_iff, Op.code]

theorem reservedBitSet_iff (w : Word) : reservedBitSet w ↔
    ∃ op : Op, opField w = op.code ∧ w &&& op.reserved ≠ 0#32 := by
  simp only [reservedBitSet, Op.exists_iff, opField, Op.code, Op.reserved, List.mem_cons,
    List.not_mem_nil, or_false, or_and_right, or_assoc]
  exact iff_of_eq (by ac_rfl)

/-- Settles O2: the decoder looks for the OP among the ten, then for a reserved bit of that OP. -/
theorem illegalWordsAreRejectedInOrder : Obligations.IllegalWordsAreRejectedInOrder := by
  intro w
  rw [decode_eq_unknownOp_iff, decode_eq_rsvdBits_iff, reservedBitSet_iff, mem_assignedOps_iff,
    not_exists]
  exact ⟨Iff.rfl, Iff.rfl⟩

/-! ### The stuffing map (spec/30_encoding.md R71, spec/41_transmit.md R130) -/

theorem stuff1_of_ordinary {b : Byte} (h1 : b ≠ startDelimiter) (h2 : b ≠ escapeByte)
    (h3 : b ≠ endDelimiter) : stuff1 b = [b] := by
  rw [stuff1, if_neg h1, if_neg h2, if_neg h3]

theorem stuff_cons (b : Byte) (xs : List Byte) : stuff (b :: xs) = stuff1 b ++ stuff xs :=
  List.flatMap_cons

/-- Settles O24: the three special bytes and codes by evaluation, every other byte by the general lemmas. -/
theorem stuffingMap : Obligations.StuffingMap :=
  ⟨rfl, rfl, rfl, fun _ h1 h2 h3 => stuff1_of_ordinary h1 h2 h3, rfl, rfl, rfl,
    fun c h1 h2 h3 => (esc_none_iff c).mpr ⟨h1, h2, h3⟩, rfl, stuff_cons⟩

end Sys2Proof.Machine

namespace Sys2Proof

/-! ### The operand bytes of a command word (spec/30_encoding.md R81, R82) -/

@[simp] theorem immLow_commandWord (op : Op) (lo hi : Byte) : immLow (commandWord op lo hi) = lo := by
  have hbase : op.row.base.extractLsb' 0 8 = 0#8 := by cases op <;> rfl
  rw [immLow, commandWord, BitVec.extractLsb'_or, BitVec.extractLsb'_or, hbase]
  ext i hi
  have h32 : i < 32 := by omega
  simp [hi, h32]

@[simp] theorem immHigh_commandWord (op : Op) (lo hi : Byte) : immHigh (commandWord op lo hi) = hi := by
  have hbase : op.row.base.extractLsb' 8 8 = 0#8 := by cases op <;> rfl
  rw [immHigh, commandWord, BitVec.extractLsb'_or, BitVec.extractLsb'_or, hbase]
  ext i hi
  have h32 : 8 + i < 32 := by omega
  simp [h32, BitVec.getLsbD_eq_getElem hi]

/-- CK_ADD's word decodes to it: the operand leaves the reserved bits clear and is read back (R82). -/
theorem decode_commandWord_ckAdd (b : Byte) :
    decode (.command (commandWord .ckAdd b 0)) = .ok (.ckAdd b) :=
  (decode_eq_ok_iff _ _).mpr ⟨.ckAdd, Laws.EncodeInRow.ckAdd b, by rw [Op.instr, immLow_commandWord]⟩

/-- CK_VERIFY's word decodes to it: the operands leave the reserved bits clear and are read back (R82). -/
theorem decode_commandWord_ckVerify (f0 f1 : Byte) :
    decode (.command (commandWord .ckVerify f0 f1)) = .ok (.ckVerify f0 f1) :=
  (decode_eq_ok_iff _ _).mpr ⟨.ckVerify, Laws.EncodeInRow.ckVerify f0 f1, by
    rw [Op.instr, immLow_commandWord, immHigh_commandWord]⟩

end Sys2Proof

namespace Sys2Proof.Machine

/-! ### Illegal command words (R202, R203, R205) -/

theorem nextGrant_agent (a : Agent) (rest : List Turn) :
    nextGrant (.agent a :: rest) = some { agent := a, sameCycle := Cycle.quiet, later := rest } := rfl

/-- An accepted command word leaves its port, and its turn is over (R80). -/
theorem afterTurn_command (s : State) (later : List Turn) :
    s.afterTurn { agent := .command, sameCycle := Cycle.quiet, later := later } true =
      s.withEnv { s.env with commands := s.env.commands.tail, schedule := later } := rfl

/-- A word that does not decode is accepted and records its error, if none is recorded yet (R84, R205). -/
theorem rejectedWith_of_decode_eq_error {w : Word} {e : DecodeError}
    (he : decode (.command w) = .error e) : rejectedWith w (errorCode e) := by
  intro s rest later hw hs
  have hp : presented .command s.env = some (.command w) := by simp [presented, hw]
  simp only [step, hs, nextGrant_agent, hp, he, execIllegal, afterTurn_command, hw, List.tail_cons,
    State.cmdError_eq]
  rfl

/-- A set reserved bit under an assigned OP is reported as RSVD_BITS (R203). -/
theorem rejectedWith_rsvdBits (op : Op) {w : Word} (hop : opField w = op.code)
    (hr : w &&& op.reserved ≠ 0#32) : rejectedWith w .rsvdBits :=
  rejectedWith_of_decode_eq_error ((decode_eq_rsvdBits_iff w).mpr ⟨op, hop, hr⟩)

/-! ### The checksum unit (spec/40_checksum.md R103 to R107) -/

theorem exec_ckClear_eq (s : State) :
    exec .ckClear s = .next (s.withCk { acc := 0, matchLe := false, matchBe := false }) := rfl

theorem exec_ckAdd_eq (b : Byte) (s : State) : exec (.ckAdd b) s =
    .next (s.withCk { acc := s.ck.acc + zext16 b, matchLe := false, matchBe := false }) := rfl

theorem exec_ckVerify_eq (f0 f1 : Byte) (s : State) : exec (.ckVerify f0 f1) s =
    .next (s.withCk { acc := s.ck.acc, matchLe := matchesLe s.ck.acc f0 f1,
                      matchBe := matchesBe s.ck.acc f0 f1 }) := rfl

@[simp] theorem zext16_toNat (b : Byte) : (zext16 b).toNat = b.toNat :=
  BitVec.toNat_setWidth_of_le (by decide)

/-- Two bytes fill 16 bits, so the reading is exact (R14). -/
@[simp] theorem le16_toNat (f0 f1 : Byte) : (le16 f0 f1).toNat = f0.toNat + 256 * f1.toNat := by
  have := f0.isLt
  have := f1.isLt
  rw [le16, BitVec.toNat_ofNat, Nat.mod_eq_of_lt (by omega)]

/-- The big-endian reading is the little-endian one of the swapped bytes (R14). -/
theorem be16_eq_le16_swap (f0 f1 : Byte) : be16 f0 f1 = le16 f1 f0 := by
  rw [be16, le16, Nat.add_comm]

theorem matchesLe_iff (sum : Half) (f0 f1 : Byte) :
    matchesLe sum f0 f1 = true ↔ sum.toNat = f0.toNat + 256 * f1.toNat := by
  rw [matchesLe, beq_iff_eq, ← BitVec.toNat_inj, le16_toNat]

theorem matchesBe_iff (sum : Half) (f0 f1 : Byte) :
    matchesBe sum f0 f1 = true ↔ sum.toNat = 256 * f0.toNat + f1.toNat := by
  rw [matchesBe, beq_iff_eq, ← BitVec.toNat_inj, be16_eq_le16_swap, le16_toNat, Nat.add_comm]

/-- Settles O16: the 16-bit addition wraps; the word and its reserved bits are those of the CK_ADD row. -/
theorem ckAddResult : Obligations.CkAddResult := by
  refine ⟨fun s b => ⟨_, exec_ckAdd_eq b s, ?sum, rfl, rfl, rfl⟩, fun b => ?word,
    fun w => rejectedWith_rsvdBits .ckAdd⟩
  case sum => rw [State.withCk_ck, BitVec.toNat_add, zext16_toNat]
  case word => simpa [commandWord, Op.row] using decode_commandWord_ckAdd b

/-- Settles O17: both flags are the comparisons of the two readings; the word and its reserved bits are
those of the CK_VERIFY row. -/
theorem ckVerifyResult : Obligations.CkVerifyResult := by
  refine ⟨fun s f0 f1 => ⟨_, exec_ckVerify_eq f0 f1 s, ?le, ?be, rfl, rfl⟩, decode_commandWord_ckVerify,
    fun w => rejectedWith_rsvdBits .ckVerify⟩
  case le => exact matchesLe_iff s.ck.acc f0 f1
  case be => exact matchesBe_iff s.ck.acc f0 f1

/-- Settles O15: the effect by the meaning of CK_CLEAR, its reserved bits by those of its row. -/
theorem ckClearResult : Obligations.CkClearResult :=
  ⟨exec_ckClear_eq, by decide, fun _ => rejectedWith_rsvdBits .ckClear⟩

/-! ### The frame validator (spec/40_checksum.md R110) -/

/-- The validator takes the last two bytes as the field (R110). -/
theorem validate_append_field (minLen : Nat) (body : List Byte) (f0 f1 : Byte) :
    validate minLen (body ++ [f0, f1]) = validateSplit minLen (body.length + 2) body f0 f1 := by
  simp [validate]

/-- A frame of fewer than two bytes has no field (R110). -/
theorem validate_of_length_lt_two (minLen : Nat) {buf : List Byte} (h : buf.length < 2) :
    validate minLen buf = validateShort minLen buf.length := by
  match buf, h with
  | [], _ => rfl
  | [_], _ => rfl

theorem validateSplit_trunc_iff (minLen n : Nat) (body : List Byte) (f0 f1 : Byte) :
    (validateSplit minLen n body f0 f1).trunc = true ↔ n < minLen := decide_eq_true_iff

theorem validateSplit_valid_iff (minLen n : Nat) (body : List Byte) (f0 f1 : Byte) :
    (validateSplit minLen n body f0 f1).valid = true ↔
      ((validateSplit minLen n body f0 f1).matchLe = true ∨
        (validateSplit minLen n body f0 f1).matchBe = true) ∧
      (validateSplit minLen n body f0 f1).trunc = false := by
  simp [validateSplit]

/-- The end delimiter completes a frame that is being received (R173, R180). -/
theorem RxUnit.takeByte_endDelimiter {rx : RxUnit} (p : Config.Params) (h : rx.state = .inPacket) :
    rx.takeByte p endDelimiter = rx.complete p := by
  simp [takeByte, h, endDelimiter, escapeByte]

/-- Settles O23: the long and the short form of the validator, and the end delimiter of a frame, which
stores the validator's results. -/
theorem validatorResult : Obligations.ValidatorResult := by
  refine fun minLen => ⟨fun body f0 f1 => ?long, fun buf h => validate_of_length_lt_two minLen h,
    fun s hs hmin => ?complete⟩
  case long =>
    exact ⟨_, validate_append_field minLen body f0 f1, rfl, le16_toNat f0 f1,
      matchesLe_iff (checksum body) f0 f1, matchesBe_iff (checksum body) f0 f1,
      validateSplit_trunc_iff minLen _ body f0 f1, validateSplit_valid_iff minLen _ body f0 f1⟩
  case complete =>
    have hstep : exec (.lineRx endDelimiter) s = .next (s.withRx (s.rx.complete s.params)) := by
      rw [exec_lineRx_eq, if_neg (by simp [hs]), RxUnit.takeByte_endDelimiter s.params hs]
    exact ⟨_, hstep, by rw [State.withRx_rx, RxUnit.complete_check, hmin], received_length s.rx⟩

end Sys2Proof.Machine

namespace Sys2Proof.Machine

/-! ### The bytes of a receive, state by state (spec/42_receive.md R171 to R177) -/

/-- A receive in progress takes the byte that the line offers (R170). -/
theorem exec_lineRx_of_receiving {s : State} (b : Byte) (h : s.rx.state ≠ .stopped) :
    exec (.lineRx b) s = .next (s.withRx (s.rx.takeByte s.params b)) := by
  rw [exec_lineRx_eq, if_neg h]

theorem RxUnit.takeByte_startDelimiter {rx : RxUnit} (p : Config.Params) (h : rx.state = .idle) :
    rx.takeByte p startDelimiter = { rx with state := .inPacket, len := 0 } := by
  simp [takeByte, h]

theorem RxUnit.takeByte_noise {rx : RxUnit} (p : Config.Params) {b : Byte} (h : rx.state = .idle)
    (hb : b ≠ startDelimiter) : rx.takeByte p b = rx := by
  simp [takeByte, h, hb]

theorem RxUnit.takeByte_escapeByte {rx : RxUnit} (p : Config.Params) (h : rx.state = .inPacket) :
    rx.takeByte p escapeByte = { rx with state := .escaped } := by
  simp [takeByte, h]

theorem RxUnit.takeByte_data {rx : RxUnit} (p : Config.Params) {b : Byte} (h : rx.state = .inPacket)
    (hesc : b ≠ escapeByte) (hend : b ≠ endDelimiter) : rx.takeByte p b = rx.append p b := by
  simp [takeByte, h, hesc, hend]

theorem RxUnit.takeByte_invalidEscape {rx : RxUnit} (p : Config.Params) {c : Byte}
    (h : rx.state = .escaped) (hc : esc c = none) : rx.takeByte p c = rx.finish .invalidEscape := by
  simp [takeByte, h, hc]

theorem RxUnit.append_of_full {rx : RxUnit} {p : Config.Params} (v : Byte) (h : p.rxCap = some rx.len) :
    rx.append p v = rx.finish .overflow := by
  simp [append, full, h]

theorem RxUnit.append_of_room {rx : RxUnit} {p : Config.Params} (v : Byte) (h : p.rxCap ≠ some rx.len) :
    rx.append p v = { rx with buf := rx.buf.write rx.len v, len := rx.len + 1 } := by
  simp [append, full, h]

/-- An escape code with no room for its byte overflows: the receive does not return to IN_PACKET (R175). -/
theorem RxUnit.takeByte_escapeCode_of_full {rx : RxUnit} {p : Config.Params} {c v : Byte}
    (h : rx.state = .escaped) (hc : esc c = some v) (hfull : p.rxCap = some rx.len) :
    rx.takeByte p c = rx.finish .overflow := by
  simp [takeByte, h, hc, append_of_full v hfull]

theorem RxUnit.takeByte_escapeCode_of_room {rx : RxUnit} {p : Config.Params} {c v : Byte}
    (h : rx.state = .escaped) (hc : esc c = some v) (hroom : p.rxCap ≠ some rx.len) :
    rx.takeByte p c = { rx with state := .inPacket, buf := rx.buf.write rx.len v, len := rx.len + 1 } := by
  simp [takeByte, h, hc, append_of_room v hroom]

/-- The three escape codes with the special bytes they stand for (R71). -/
theorem esc_of_code {c v : Byte}
    (h : (c = 0x05#8 ∧ v = 0xA5#8) ∨ (c = 0x0A#8 ∧ v = 0xAA#8) ∨ (c = 0x0E#8 ∧ v = 0xAE#8)) :
    esc c = some v := by
  rcases h with ⟨rfl, rfl⟩ | ⟨rfl, rfl⟩ | ⟨rfl, rfl⟩ <;> rfl

/-- Settles O41: the escape byte, the end delimiter, and every other byte, which is stored or overflows. -/
theorem inPacketLineByte : Obligations.InPacketLineByte := by
  intro s hs
  have take (b : Byte) := exec_lineRx_of_receiving (s := s) b (by simp [hs])
  refine ⟨?escape, ?complete, fun b hesc hend => ⟨fun hfull => ?overflow, fun hroom => ?store⟩⟩
  case escape =>
    change exec (.lineRx escapeByte) s = _
    rw [take, RxUnit.takeByte_escapeByte _ hs]
    rfl
  case complete =>
    change exec (.lineRx endDelimiter) s = _
    rw [take, RxUnit.takeByte_endDelimiter _ hs]
    rfl
  case overflow =>
    rw [take, RxUnit.takeByte_data _ hs hesc hend, RxUnit.append_of_full b hfull]
    rfl
  case store =>
    rw [take, RxUnit.takeByte_data _ hs hesc hend, RxUnit.append_of_room b hroom]
    exact ⟨_, rfl, rfl, Memory.read?_write_same _ _ _, fun i hi => Memory.read?_write_other _ _ hi⟩

/-- Settles O42: an escape code stores its special byte or overflows; any other byte is an invalid escape. -/
theorem escapedLineByte : Obligations.EscapedLineByte := by
  intro s hs
  have take (b : Byte) := exec_lineRx_of_receiving (s := s) b (by simp [hs])
  refine ⟨fun c v hcode => ⟨fun hfull => ?overflow, fun hroom => ?store⟩, fun c h1 h2 h3 => ?invalid⟩
  case overflow =>
    rw [take, RxUnit.takeByte_escapeCode_of_full hs (esc_of_code hcode) hfull]
    rfl
  case store =>
    rw [take, RxUnit.takeByte_escapeCode_of_room hs (esc_of_code hcode) hroom]
    exact ⟨_, rfl, rfl, Memory.read?_write_same _ _ _, fun i hi => Memory.read?_write_other _ _ hi⟩
  case invalid =>
    rw [take, RxUnit.takeByte_invalidEscape _ hs ((esc_none_iff c).mpr ⟨h1, h2, h3⟩)]
    rfl

/-- Settles O40: the start delimiter opens a frame, and noise leaves the unit as it is. -/
theorem idleHuntsForTheStartDelimiter : Obligations.IdleHuntsForTheStartDelimiter := by
  intro s hs
  have take (b : Byte) := exec_lineRx_of_receiving (s := s) b (by simp [hs])
  refine ⟨?start, fun b hb => ?noise⟩
  case start =>
    change exec (.lineRx startDelimiter) s = _
    rw [take, RxUnit.takeByte_startDelimiter _ hs]
    rfl
  case noise => rw [take, RxUnit.takeByte_noise _ hs hb, State.withRx_self]

/-! ### The receive commands (R165, R166) -/

/-- Settles O36: the effect is the meaning of RX_START, its reserved bits are those of its row. -/
theorem rxStartResult : Obligations.RxStartResult :=
  ⟨fun _ => rfl, by decide, fun _ => rejectedWith_rsvdBits .rxStart⟩

/-- Settles O37: with and without a receive in progress; the reserved bits are those of its row. -/
theorem rxAbortResult : Obligations.RxAbortResult := by
  refine ⟨fun s hs => ?inProgress, fun s hs => ?stopped, by decide, fun _ => rejectedWith_rsvdBits .rxAbort⟩
  case inProgress => rw [exec_rxAbort_eq, if_neg hs]; rfl
  case stopped => rw [exec_rxAbort_eq, if_pos hs]

/-! ### The outcome of an ended receive (R186) -/

/-- With no receive in progress only RX_START and RESET write the receive unit (R166, R181, R184, R186). -/
theorem exec_rx_of_stopped {i : Instr} {s t : State} (h : exec i s = .next t)
    (hs : s.rx.state = .stopped) : t.rx = s.rx ∨ i = .rxStart ∨ i = .reset := by
  rcases exec_writes_at_most_one_unit h with
    ⟨_, rfl⟩ | ⟨_, rfl⟩ | ⟨_, _, _, rfl⟩ | ⟨hi, _⟩ | ⟨_, _, rfl⟩ | ⟨hi, _⟩
  case inr.inr.inr.inl =>
    rcases exec_touchesRx_cases hi h with ⟨hstart, _⟩ | ⟨_, rfl⟩ | ⟨hr, _⟩
    · exact .inr (.inl hstart)
    · exact .inl rfl
    · exact absurd hs hr
  case inr.inr.inr.inr.inr => exact .inr (.inr hi)
  all_goals exact .inl rfl

/-- Settles O45: of the four things a step can do only running its event writes the receive unit, and then
the event is one of the two. -/
theorem receiveOutcomeIsKept : Obligations.ReceiveOutcomeIsKept := by
  intro s t hs h hne
  rcases step_cases s with ⟨_, e⟩ | ⟨g, _, _, e⟩ | ⟨g, _, _, _, _, _, e⟩ | ⟨g, ev, i, hg, hp, hd, e⟩ <;>
    rw [e] at h
  case inr.inr.inr =>
    rcases exec_rx_of_stopped h (by simpa using hs) with hkept | rfl | rfl
    · exact absurd (by simpa using hkept) hne
    · exact ⟨g, ev, hg, hp, .inl hd⟩
    · exact ⟨g, ev, hg, hp, .inr hd⟩
  all_goals cases h; exact absurd (by simp) hne

end Sys2Proof.Machine

namespace Sys2Proof.Machine

/-! ### The control commands and the read port (spec/43_control.md R200 to R203, R206) -/

/-- Settles O7: a word of either kind does not decode, and the step records the decoder's error. -/
theorem illegalWordRecordsItsError : Obligations.IllegalWordRecordsItsError := by
  intro w
  obtain ⟨hunknown, hrsvd⟩ := illegalWordsAreRejectedInOrder w
  exact ⟨fun h => rejectedWith_of_decode_eq_error (hunknown.mpr h),
    fun h => rejectedWith_of_decode_eq_error (hrsvd.mpr h)⟩

theorem exec_nop_eq (s : State) : exec .nop s = .next s := rfl

theorem exec_errClear_eq (s : State) : exec .errClear s = .next (s.withCmdErr .none) := rfl

theorem exec_read_eq (a : Half) (s : State) : exec (.read a) s = .next (s.withEnv { s.env with
    readOut := s.env.readOut ++ [memRead s a], draws := s.env.draws + 4 }) := rfl

/-- Settles O12: the effect is the meaning of NOP; its reserved bits are those of its row. -/
theorem nopChangesNothing : Obligations.NopChangesNothing :=
  ⟨fun s => ⟨exec_nop_eq s, rfl⟩, by decide, fun _ => rejectedWith_rsvdBits .nop⟩

/-- Settles O13: the effect is the meaning of ERR_CLEAR; its reserved bits are those of its row. -/
theorem errClearResult : Obligations.ErrClearResult :=
  ⟨exec_errClear_eq, by decide, fun _ => rejectedWith_rsvdBits .errClear⟩

/-- Clearing the low two bits of the address does not change what is read (R55). -/
theorem memRead_alignedAddr (s : State) (a : Half) : memRead s (a &&& 0xFFFC#16) = memRead s a := by
  rw [memRead, memRead, BitVec.and_assoc, BitVec.and_self]

/-- Settles O47: the read port records the word of the aligned address; the draws are the model's own. -/
theorem readChangesNoState : Obligations.ReadChangesNoState := by
  intro s a
  refine ⟨s.env.draws + 4, ?_⟩
  rw [memRead_alignedAddr]
  exact exec_read_eq a s

end Sys2Proof.Machine

namespace Sys2Proof

/-! ### The encoder and the decoder undo each other (spec/30_encoding.md parts B and C) -/

/-- TX_DATA's word decodes to it: the operand leaves the reserved bits clear and is read back (R82). -/
theorem decode_commandWord_txData (b : Byte) :
    decode (.command (commandWord .txData b 0)) = .ok (.txData b) :=
  (decode_eq_ok_iff _ _).mpr ⟨.txData, Laws.EncodeInRow.txData b, by rw [Op.instr, immLow_commandWord]⟩

/-- The low byte of a word is its operand IMM[7:0] (R81). -/
theorem and_operandMask (w : Word) : w &&& 0x000000FF#32 = (immLow w).setWidth 32 := by
  have hbit : ∀ k < 32, (0x000000FF#32).getLsbD k = decide (k < 8) := by decide
  apply BitVec.eq_of_getLsbD_eq
  intro i hi
  rw [BitVec.getLsbD_and, hbit i hi, immLow, BitVec.getLsbD_setWidth, BitVec.getLsbD_extractLsb']
  simp [hi, Bool.and_comm]

/-- The two low bytes of a word are its operands IMM[15:8] and IMM[7:0] (R81). -/
theorem and_operandsMask (w : Word) :
    w &&& 0x0000FFFF#32 = (immHigh w).setWidth 32 <<< 8 ||| (immLow w).setWidth 32 := by
  have hbit : ∀ k < 32, (0x0000FFFF#32).getLsbD k = decide (k < 16) := by decide
  apply BitVec.eq_of_getLsbD_eq
  intro i hi
  rw [BitVec.getLsbD_and, hbit i hi, BitVec.getLsbD_or, BitVec.getLsbD_shiftLeft, immHigh, immLow,
    BitVec.getLsbD_setWidth, BitVec.getLsbD_setWidth, BitVec.getLsbD_extractLsb',
    BitVec.getLsbD_extractLsb']
  rcases Nat.lt_or_ge i 8 with h | h
  · simp [hi, h, show i < 16 by omega]
  · have hhigh : i - 8 < 8 ↔ i < 16 := by omega
    simp [hi, hhigh, Nat.not_lt.mpr h, Nat.add_sub_cancel' h, show i - 8 < 32 by omega, Bool.and_comm]

/-- A word is what its row's mask keeps together with what it lets through. -/
theorem eq_base_or_of_matches {w base mask : Word} (h : w &&& mask = base) :
    w = base ||| (w &&& ~~~mask) := by
  rw [← h, ← BitVec.and_or_distrib_left, BitVec.or_not_self, BitVec.and_allOnes]

/-- A word that matches a row is the one word of the row's instruction with its operands (R82). -/
theorem encode_instr_of_matches {w : Word} {op : Op} (h : w &&& op.row.mask = op.row.base) :
    encode (op.instr w) = .command w := by
  have hw := eq_base_or_of_matches h
  cases op
  case txData | ckAdd =>
    change w = _ ||| (w &&& 0x000000FF#32) at hw
    rw [and_operandMask] at hw
    exact congrArg Event.command hw.symm
  case ckVerify =>
    change w = _ ||| (w &&& 0x0000FFFF#32) at hw
    rw [and_operandsMask, ← BitVec.or_assoc] at hw
    exact congrArg Event.command hw.symm
  all_goals
    change w &&& 0xFFFFFFFF#32 = _ at h
    rw [Machine.and_fullMask] at h
    rw [h]; rfl

end Sys2Proof

namespace Sys2Proof.Machine

/-- Settles O3: the words with operands by their rows, the seven fixed words by evaluation; the five other
events are their own operands. -/
theorem decodeOfEncodeIsTheInstruction : Obligations.DecodeOfEncodeIsTheInstruction := by
  intro i
  cases i
  case txData b => exact decode_commandWord_txData b
  case ckAdd b => exact decode_commandWord_ckAdd b
  case ckVerify f0 f1 => exact decode_commandWord_ckVerify f0 f1
  all_goals rfl

/-- Settles O4: a word that decodes matches a row, whose base and operands are all of its bits. -/
theorem encodeOfDecodeIsTheWord : Obligations.EncodeOfDecodeIsTheWord := by
  intro w i h
  obtain ⟨op, hrow, rfl⟩ := (decode_eq_ok_iff w i).mp h
  exact encode_instr_of_matches hrow

/-- Settles O5, by evaluating the decoder on the seven words. -/
theorem writtenOutWordsDecode : Obligations.WrittenOutWordsDecode := by
  unfold Obligations.WrittenOutWordsDecode
  decide

end Sys2Proof.Machine

namespace Sys2Proof.Machine

/-! ### The invariant of the receive buffer (spec/10_state.md R21, R27, R35.2) -/

/-- The part of the invariant about `rx_buf` and `rx_len`. -/
structure BufferInv (p : Config.Params) (buf : Memory) (len : Nat) : Prop where
  lenFits : ∀ n, p.rxCap = some n → len ≤ n
  wf : buf.wf
  withinCap : ∀ n, p.rxCap = some n → ∀ i, (buf.read? i).isSome → i < n
  stored : ∀ i, i < len → (buf.read? i).isSome

/-- A receive that begins leaves every cell and counts none (R165, R171, R250). -/
theorem BufferInv.restart {p : Config.Params} {buf : Memory} {len : Nat} (h : BufferInv p buf len) :
    BufferInv p buf 0 :=
  ⟨fun _ _ => Nat.zero_le _, h.wf, h.withinCap, fun _ hi => absurd hi (Nat.not_lt_zero _)⟩

/-- Storing a byte at `rx_len` with room for it keeps the invariant (R177). -/
theorem BufferInv.write {p : Config.Params} {buf : Memory} {len : Nat} (h : BufferInv p buf len)
    (hroom : p.rxCap ≠ some len) (v : Byte) : BufferInv p (buf.write len v) (len + 1) := by
  have hlt : ∀ n, p.rxCap = some n → len < n := fun n hn =>
    Nat.lt_of_le_of_ne (h.lenFits n hn) fun heq => hroom (heq ▸ hn)
  refine ⟨hlt, Memory.write_wf h.wf len v, fun n hn i hi => ?_, fun i hi => ?_⟩
  · rw [Memory.read?_write] at hi
    split at hi
    · next heq => exact heq ▸ hlt n hn
    · exact h.withinCap n hn i hi
  · rw [Memory.read?_write]
    split
    · rfl
    · exact h.stored i (by omega)

/-! ### The invariant of the outcome (spec/10_state.md R35.3 to R35.5) -/

/-- The part of the invariant about the outcome and the validator values. -/
structure OutcomeInv (p : Config.Params) (rx : RxUnit) : Prop where
  resultStopped : rx.result ≠ .none → rx.state = .stopped
  checkClear : rx.result ≠ .frame → rx.check = Validation.clear
  checkOfFrame : rx.result = .frame → rx.check = validate p.minLen rx.received

/-- Valid is a match in some reading of a frame that is not truncated (R110). -/
theorem validate_valid (minLen : Nat) (buf : List Byte) : (validate minLen buf).valid =
    (((validate minLen buf).matchLe || (validate minLen buf).matchBe) && !(validate minLen buf).trunc) := by
  unfold validate
  split <;> rfl

/-- The validator values are those of a frame or clear, so valid is a match and not truncated (R35.5). -/
theorem OutcomeInv.valid_eq {p : Config.Params} {rx : RxUnit} (h : OutcomeInv p rx) :
    rx.check.valid = ((rx.check.matchLe || rx.check.matchBe) && !rx.check.trunc) := by
  by_cases hr : rx.result = .frame
  · rw [h.checkOfFrame hr]; exact validate_valid _ _
  · rw [h.checkClear hr]; rfl

/-- While a receive is in progress there is no outcome yet, and nothing is reported of a frame. -/
theorem OutcomeInv.of_receiving {p : Config.Params} {rx : RxUnit} (h : OutcomeInv p rx)
    (hr : rx.state ≠ .stopped) : rx.result = .none ∧ rx.check = Validation.clear := by
  have hnone : rx.result = .none := Classical.byContradiction fun hne => hr (h.resultStopped hne)
  exact ⟨hnone, h.checkClear (by simp [hnone])⟩

/-- A unit that has no outcome and clear validator values, in whatever state (R165, R250). -/
theorem OutcomeInv.of_clear {p : Config.Params} {rx : RxUnit} (hr : rx.result = .none)
    (hc : rx.check = Validation.clear) : OutcomeInv p rx :=
  ⟨fun h => absurd hr h, fun _ => hc, fun h => by rw [hr] at h; cases h⟩

/-- A receive that ends without a frame reports nothing of one (R166, R176, R177, R184). -/
theorem OutcomeInv.finish {p : Config.Params} {rx : RxUnit} {r : RxResult} (hr : r ≠ .frame)
    (hc : rx.check = Validation.clear) : OutcomeInv p (rx.finish r) :=
  ⟨fun _ => rfl, fun _ => hc, fun h => absurd h hr⟩

/-- A receive that completes reports the validator values of the received bytes (R180). -/
theorem OutcomeInv.complete (p : Config.Params) (rx : RxUnit) : OutcomeInv p (rx.complete p) :=
  ⟨fun _ => rfl, fun h => absurd rfl h, fun _ => rfl⟩

/-! ### The receive unit keeps its invariant -/

/-- The part of the invariant about the receive unit. -/
structure RxInv (p : Config.Params) (rx : RxUnit) : Prop where
  buffer : BufferInv p rx.buf rx.len
  outcome : OutcomeInv p rx

/-- The invariant is one of the parameters, one of the transmit queue and one of the receive unit. -/
theorem inv_iff (s : State) : s.Inv ↔
    s.params.wf = true ∧ s.tx.queue.length ≤ s.params.txqDepth ∧ RxInv s.params s.rx := by
  constructor
  · intro h
    exact ⟨h.paramsLegal, h.queueFits, ⟨h.lenFits, h.bufWf, h.bufWithinCap, h.bufStored⟩,
      h.resultStopped, h.checkClear, h.checkOfFrame⟩
  · rintro ⟨hp, hq, hb, ho⟩
    exact ⟨hp, hq, hb.lenFits, ho.resultStopped, ho.checkClear, ho.checkOfFrame,
      fun hv => by rw [ho.valid_eq] at hv; simpa [and_comm] using hv, hb.wf, hb.withinCap, hb.stored⟩

theorem RxInv.finish {p : Config.Params} {rx : RxUnit} {r : RxResult} (h : RxInv p rx)
    (hs : rx.state ≠ .stopped) (hr : r ≠ .frame) : RxInv p (rx.finish r) :=
  ⟨h.buffer, .finish hr (h.outcome.of_receiving hs).2⟩

/-- An accepted line byte keeps the invariant: it begins a frame, stores a byte, or ends the receive. -/
theorem RxInv.takeByte {p : Config.Params} {rx : RxUnit} (h : RxInv p rx) (hs : rx.state ≠ .stopped)
    (b : Byte) : RxInv p (rx.takeByte p b) := by
  obtain ⟨hr, hc⟩ := h.outcome.of_receiving hs
  rcases rx.takeByte_cases p b with ⟨hstop, _⟩ | ⟨_, _, e⟩ | ⟨_, _, e⟩ | ⟨_, _, e⟩ | ⟨_, _, e⟩ |
    ⟨_, _, _, _, e⟩ | ⟨_, _, _, hroom, e⟩ | ⟨_, _, e⟩ | ⟨_, _, _, _, e⟩ | ⟨v, _, _, hroom, e⟩
  · exact absurd hstop hs
  all_goals rw [e]
  · exact ⟨h.buffer.restart, .of_clear hr hc⟩
  · exact h
  · exact ⟨h.buffer, .of_clear hr hc⟩
  · exact ⟨h.buffer, .complete p rx⟩
  · exact h.finish hs (by simp)
  · exact ⟨h.buffer.write hroom b, .of_clear hr hc⟩
  · exact h.finish hs (by simp)
  · exact h.finish hs (by simp)
  · exact ⟨h.buffer.write hroom v, .of_clear hr hc⟩

/-- Every event keeps the invariant of the receive unit. -/
theorem exec_keeps_rxInv {i : Instr} {s t : State} (h : exec i s = .next t)
    (hs : RxInv s.params s.rx) : RxInv s.params t.rx := by
  rcases exec_writes_at_most_one_unit h with
    ⟨_, rfl⟩ | ⟨_, rfl⟩ | ⟨_, _, _, rfl⟩ | ⟨hi, _⟩ | ⟨_, _, rfl⟩ | ⟨_, rfl⟩
  case inr.inr.inr.inl =>
    rcases exec_touchesRx_cases hi h with
      ⟨_, rfl⟩ | ⟨_, rfl⟩ | ⟨hr, ⟨_, rfl⟩ | ⟨_, rfl⟩ | ⟨b, _, rfl⟩⟩
    · exact ⟨hs.buffer.restart, .of_clear rfl rfl⟩
    · exact hs
    · exact hs.finish hr (by simp)
    · exact hs.finish hr (by simp)
    · exact hs.takeByte hr b
  case inr.inr.inr.inr.inr => exact ⟨hs.buffer.restart, .of_clear rfl rfl⟩
  all_goals exact hs

/-! ### The transmit commands (spec/41_transmit.md R133 to R136, R141) -/

theorem exec_txStart_of_idle {s : State} (h : s.tx.state = .idle) : exec .txStart s =
    .next (s.transmit [startDelimiter] { s.tx with sum := 0, state := .body }) := by
  simp only [exec, execTxStart, h]

theorem exec_txStart_of_body {s : State} (h : s.tx.state = .body) :
    exec .txStart s = .next (s.cmdError .sequence) := by
  simp only [exec, execTxStart, h]

theorem exec_txData_of_idle {s : State} (b : Byte) (h : s.tx.state = .idle) :
    exec (.txData b) s = .next (s.cmdError .sequence) := by
  simp only [exec, execTxData, h]

theorem exec_txData_of_body {s : State} (b : Byte) (h : s.tx.state = .body) : exec (.txData b) s =
    .next (s.transmit (stuff1 b) { s.tx with sum := s.tx.sum + zext16 b }) := by
  simp only [exec, execTxData, h]

theorem exec_txEnd_of_idle {s : State} (h : s.tx.state = .idle) :
    exec .txEnd s = .next (s.cmdError .sequence) := by
  simp only [exec, execTxEnd, h]

theorem exec_txEnd_of_body {s : State} (h : s.tx.state = .body) : exec .txEnd s =
    .next (s.transmit (endBytes s.tx.sum) { s.tx with state := .idle }) := by
  simp only [exec, execTxEnd, h]

theorem stuff1_ne_nil (b : Byte) : stuff1 b ≠ [] :=
  List.ne_nil_of_length_pos (stuff1_length_bounds b).1

theorem endBytes_ne_nil (sum : Half) : endBytes sum ≠ [] :=
  List.ne_nil_of_length_pos (Nat.lt_of_lt_of_le (by decide) (endBytes_length_bounds sum).1)

/-- A TX command reports a sequence error and emits nothing, or it emits its bytes at the tail of the queue
if they fit and else waits (R133 to R135, R141, R204). -/
theorem exec_txCommand_emits {i : Instr} (hi : isTxCommand i = true) (s : State) :
    (out i s = [] ∧ exec i s = .next (s.cmdError .sequence)) ∨
    (out i s ≠ [] ∧ ∃ u : TxUnit, u.queue = s.tx.queue ∧ exec i s = .next (s.transmit (out i s) u)) := by
  cases i <;> simp only [isTxCommand, reduceCtorEq] at hi
  case txStart =>
    cases hs : s.tx.state <;> simp only [out, hs]
    · refine .inr ⟨List.cons_ne_nil _ _, _, ?_, exec_txStart_of_idle hs⟩; rfl
    · exact .inl ⟨trivial, exec_txStart_of_body hs⟩
  case txData b =>
    cases hs : s.tx.state <;> simp only [out, hs]
    · exact .inl ⟨trivial, exec_txData_of_idle b hs⟩
    · refine .inr ⟨stuff1_ne_nil b, _, ?_, exec_txData_of_body b hs⟩; rfl
  case txEnd =>
    cases hs : s.tx.state <;> simp only [out, hs]
    · exact .inl ⟨trivial, exec_txEnd_of_idle hs⟩
    · refine .inr ⟨endBytes_ne_nil _, _, ?_, exec_txEnd_of_body hs⟩; rfl

/-- Every event keeps the queue within its depth (R35.1). -/
theorem exec_keeps_queueFits {i : Instr} {s t : State} (h : exec i s = .next t)
    (hs : s.tx.queue.length ≤ s.params.txqDepth) : t.tx.queue.length ≤ s.params.txqDepth := by
  rcases exec_writes_at_most_one_unit h with
    ⟨_, rfl⟩ | ⟨_, rfl⟩ | ⟨hi, _⟩ | ⟨_, _, rfl⟩ | ⟨_, _, rfl⟩ | ⟨_, rfl⟩
  case inr.inr.inl =>
    rcases Bool.or_eq_true_iff.mp hi with hi | hi
    · rcases exec_txCommand_emits hi s with ⟨_, e⟩ | ⟨_, u, hu, e⟩ <;> rw [e] at h <;> cases h
      · simpa using hs
      · rcases s.transmit_cases (out i s) u with ⟨hfits, e⟩ | ⟨_, e⟩ <;> rw [e]
        · simpa [hu] using hfits
        · exact hs
    · obtain rfl : i = .lineTx := of_decide_eq_true hi
      rcases exec_lineTx_cases h with ⟨_, rfl⟩ | ⟨b, rest, hq, rfl⟩
      · exact hs
      · rw [hq] at hs
        exact Nat.le_of_succ_le hs
  case inr.inr.inr.inr.inr => exact Nat.zero_le _
  all_goals exact hs

/-! ### The invariant of the whole block -/

/-- Every event keeps the invariant. -/
theorem exec_keeps_inv {i : Instr} {s t : State} (h : exec i s = .next t) (hs : s.Inv) : t.Inv := by
  obtain ⟨hp, hq, hrx⟩ := (inv_iff s).mp hs
  rw [inv_iff, exec_params h]
  exact ⟨hp, exec_keeps_queueFits h hq, exec_keeps_rxInv h hrx⟩

/-- The invariant says nothing of the command error, the checksum unit and the agents. -/
theorem inv_congr {s t : State} (hp : t.params = s.params) (htx : t.tx = s.tx) (hrx : t.rx = s.rx) :
    t.Inv ↔ s.Inv := by
  rw [inv_iff, inv_iff, hp, htx, hrx]

/-- Settles O56: of the four things a step can do only running its event touches what the invariant speaks
of, and every event keeps it. -/
theorem stepKeepsTheInvariant : Obligations.StepKeepsTheInvariant := by
  intro s t hs h
  rcases step_cases s with ⟨_, e⟩ | ⟨g, _, _, e⟩ | ⟨g, _, _, _, _, _, e⟩ | ⟨g, _, i, _, _, _, e⟩ <;>
    rw [e] at h
  case inr.inr.inr => exact exec_keeps_inv h ((inv_congr (by simp) (by simp) (by simp)).mpr hs)
  all_goals cases h; exact (inv_congr (by simp) (by simp) (by simp)).mpr hs

/-- Settles O55: the suggested parameters are legal, and nothing is stored or queued after reset. -/
theorem resetMeetsTheInvariant : Obligations.ResetMeetsTheInvariant := by
  refine (inv_iff _).mpr ⟨by decide, by decide, ⟨?_, Memory.wf_nil, ?_, ?_⟩, .of_clear rfl rfl⟩
  · exact fun _ _ => Nat.zero_le _
  · exact fun _ _ _ h => by cases h
  · exact fun _ h => absurd h (Nat.not_lt_zero _)

/-! ### The host's reading of an outcome (spec/60_exceptions.md R222) -/

/-- Four fields of one bit side by side, each 0. -/
theorem extractLsb'_four_eq_zero {n k : Nat} {w : BitVec n} (h0 : w.getLsbD k = false)
    (h1 : w.getLsbD (k + 1) = false) (h2 : w.getLsbD (k + 2) = false) (h3 : w.getLsbD (k + 3) = false) :
    w.extractLsb' k 4 = 0#4 := by
  apply BitVec.eq_of_getLsbD_eq
  intro i hi
  rw [BitVec.getLsbD_extractLsb']
  match i, hi with
  | 0, _ => simp [h0]
  | 1, _ => simp [h1]
  | 2, _ => simp [h2]
  | 3, _ => simp [h3]

/-- With clear validator values the four receive flags of STATUS read 0 (R52). -/
theorem statusWord_rxFlags_of_clear {s : State} (h : s.rx.check = Validation.clear) :
    (statusWord s).extractLsb' 16 4 = 0#4 := by
  obtain ⟨-, -, -, -, -, -, -, matchLe, matchBe, valid, trunc, -⟩ := statusWord_layout s
  rw [h] at matchLe matchBe valid trunc
  exact extractLsb'_four_eq_zero (getLsbD_of_extractLsb'_flagBit matchLe)
    (getLsbD_of_extractLsb'_flagBit matchBe) (getLsbD_of_extractLsb'_flagBit valid)
    (getLsbD_of_extractLsb'_flagBit trunc)

/-- With clear validator values RX_CHECK reads 0 (R54). -/
theorem rxCheckWord_of_clear {s : State} (h : s.rx.check = Validation.clear) : rxCheckWord s = 0#32 := by
  rw [rxCheckWord, h]; rfl

theorem sourceKind_eq_response_iff (rx : RxUnit) : sourceKind rx = some .response ↔
    rx.result = .frame ∧ rx.check.trunc = false ∧ rx.check.valid = true := by
  cases hr : rx.result <;> simp only [sourceKind, hr]
  case frame => split_ifs <;> simp_all
  all_goals simp

theorem sourceKind_eq_checksumMismatch_iff (rx : RxUnit) : sourceKind rx = some .checksumMismatch ↔
    rx.result = .frame ∧ rx.check.trunc = false ∧ rx.check.valid = false := by
  cases hr : rx.result <;> simp only [sourceKind, hr]
  case frame => split_ifs <;> simp_all
  all_goals simp

/-- The dispatcher retries TIMEOUT and ABORTED (R222). -/
theorem sourceKind_retried_iff (rx : RxUnit) : (sourceKind rx).bind SourceKind.retried = some true ↔
    rx.result = .timeout ∨ rx.result = .aborted := by
  cases hr : rx.result <;> simp only [sourceKind, hr]
  case frame => split_ifs <;> simp [SourceKind.retried]
  all_goals simp [SourceKind.retried]

theorem frameUsable_iff (s : State) :
    frameUsable s = true ↔ s.rx.result = .frame ∧ s.rx.check.valid = true := by
  simp [frameUsable]

/-- Settles O57: row by row of the table; in a state that meets the invariant valid is a match and not
truncated, and is set for a frame only. -/
theorem outcomesMapToTheSourceKinds : Obligations.OutcomesMapToTheSourceKinds := by
  intro s hs
  obtain ⟨-, -, -, outcome⟩ := (inv_iff s).mp hs
  have hvalid := outcome.valid_eq
  have validOfFrame (hv : s.rx.check.valid = true) : s.rx.result = .frame := by
    by_contra hr
    rw [outcome.checkClear hr] at hv
    cases hv
  refine ⟨?response, fun hv => ?usable, sourceKind_retried_iff s.rx, ?mismatch, fun hr => ?noFrame⟩
  case response =>
    rw [frameUsable_iff, sourceKind_eq_response_iff]
    exact ⟨fun ⟨hr, hv⟩ => ⟨hr, (hs.validSound hv).1, hv⟩, fun ⟨hr, _, hv⟩ => ⟨hr, hv⟩⟩
  case usable => exact (frameUsable_iff s).mpr ⟨validOfFrame hv, hv⟩
  case mismatch =>
    rw [sourceKind_eq_checksumMismatch_iff, hvalid]
    refine and_congr_right fun _ => and_congr_right fun htrunc => ?_
    simp [htrunc]
  case noFrame =>
    have hclear := outcome.checkClear hr
    exact ⟨rxCheckWord_of_clear hclear, statusWord_rxFlags_of_clear hclear⟩

end Sys2Proof.Machine

namespace Sys2Proof.Machine

/-! ### A step on the agent whose turn it is (spec/00_scope.md R9, R10) -/

/-- A step runs the decoded event on the state whose turn has been taken. -/
theorem step_of_decoded {s : State} {g : Grant} {ev : Event} {i : Instr}
    (hg : nextGrant s.env.schedule = some g) (hp : presented g.agent s.env = some ev)
    (hd : decode ev = .ok i) : step s = exec i (s.afterTurn g (enabled i s)) := by
  simp only [step, hg, hp, hd]

/-- A step on a word that does not decode takes it and records its error (R84, R205). -/
theorem step_of_illegal {s : State} {g : Grant} {ev : Event} {e : DecodeError}
    (hg : nextGrant s.env.schedule = some g) (hp : presented g.agent s.env = some ev)
    (hd : decode ev = .error e) : step s = .next ((s.afterTurn g true).cmdError (errorCode e)) := by
  simp only [step, hg, hp, hd, execIllegal]

/-- A step on an empty port passes the turn. -/
theorem step_of_nothing_presented {s : State} {g : Grant} (hg : nextGrant s.env.schedule = some g)
    (hp : presented g.agent s.env = none) : step s = .next (s.afterTurn g false) := by
  simp only [step, hg, hp]

/-- Whether an event is enabled does not depend on what surrounds the block. -/
@[simp] theorem enabled_withEnv (i : Instr) (s : State) (v : Env) :
    enabled i (s.withEnv v) = enabled i s := by cases i <;> rfl

@[simp] theorem out_withEnv (i : Instr) (s : State) (v : Env) : out i (s.withEnv v) = out i s := by
  cases i <;> rfl

/-- A turn that passes without its event being accepted leaves all but the schedule (R10). -/
theorem afterTurn_not_accepted (s : State) (g : Grant) :
    s.afterTurn g false = s.withEnv { s.env with schedule := g.rest false } := rfl

/-- A step whose event is not enabled passes the turn and does nothing else (R10). -/
theorem step_of_not_enabled {s : State} {g : Grant} {ev : Event} {i : Instr}
    (hg : nextGrant s.env.schedule = some g) (hp : presented g.agent s.env = some ev)
    (hd : decode ev = .ok i) (he : enabled i s = false) :
    step s = .next (s.withEnv { s.env with schedule := g.rest false }) := by
  rw [step_of_decoded hg hp hd, he, afterTurn_not_accepted]
  exact exec_of_not_enabled i _ (by rwa [enabled_withEnv])

/-- The turn of one agent on its own: what is taken from which port. -/
theorem afterTurn_agent (s : State) (a : Agent) (later : List Turn) (acc : Bool) :
    s.afterTurn { agent := a, sameCycle := Cycle.quiet, later := later } acc =
      s.withEnv { s.env with
        schedule := later
        commands := if a = .command ∧ acc = true then s.env.commands.tail else s.env.commands
        lineIn := if a = .lineRx ∧ acc = true then s.env.lineIn.tail else s.env.lineIn } := by
  cases a <;> cases acc <;> rfl

/-- Settles O6: a step on one agent's turn, with what the turn takes written out. -/
theorem stepRunsTheDecodedEvent : Obligations.StepRunsTheDecodedEvent := by
  intro s a later ev i hs hp hd
  have hg : nextGrant s.env.schedule = some ⟨a, Cycle.quiet, later⟩ := by rw [hs, nextGrant_agent]
  rw [step_of_decoded hg hp hd, afterTurn_agent]
  rfl

/-- Settles O10: each of the four things a step can do answers a next state. -/
theorem noEventStopsTheBlock : Obligations.NoEventStopsTheBlock := by
  intro s
  rcases step_cases s with ⟨_, e⟩ | ⟨_, _, _, e⟩ | ⟨_, _, _, _, _, _, e⟩ | ⟨g, _, i, _, _, _, e⟩ <;>
    rw [e]
  case inr.inr.inr => exact exec_next i _
  all_goals exact ⟨_, rfl⟩

/-- Settles O9: an empty schedule gives no turn, and an event that is not enabled only uses its turn up. -/
theorem stateIsHeldBetweenEvents : Obligations.StateIsHeldBetweenEvents := by
  intro s t h
  refine ⟨fun hempty => ?_, fun g ev i hg hp hd he => ?_⟩
  · rw [step, hempty] at h
    cases h
    rfl
  · rw [step_of_not_enabled hg hp hd he] at h
    cases h
    rfl

/-! ### The command error (R33, R201 to R205) -/

/-- What an event makes of the command error: ERR_CLEAR and RESET clear it; every other event keeps it, or
finds none recorded (R205). -/
theorem exec_cmdErr_cases {i : Instr} {s t : State} (h : exec i s = .next t) :
    t.cmdErr = s.cmdErr ∨ s.cmdErr = .none ∨ ((i = .errClear ∨ i = .reset) ∧ t.cmdErr = .none) := by
  have recorded (c : CmdErr) : (s.cmdError c).cmdErr = s.cmdErr ∨ s.cmdErr = .none := by
    rw [State.cmdError_eq, State.withCmdErr_cmdErr]
    split
    · next hnone => exact .inr hnone
    · exact .inl rfl
  by_cases htx : isTxCommand i = true
  · rcases exec_txCommand_emits htx s with ⟨_, e⟩ | ⟨_, u, _, e⟩ <;> rw [e] at h <;> cases h
    · exact (recorded _).imp_right .inl
    · rcases s.transmit_cases (out i s) u with ⟨_, e⟩ | ⟨_, e⟩ <;> rw [e] <;> exact .inl rfl
  · cases i
    case errClear => cases h; exact .inr (.inr ⟨.inl rfl, rfl⟩)
    case reset => cases h; exact .inr (.inr ⟨.inr rfl, rfl⟩)
    case txStart | txData | txEnd => exact absurd rfl htx
    case nop | ckClear | ckAdd | ckVerify => cases h; exact .inl rfl
    case rxStart => cases h; exact .inl rfl
    case rxAbort => rw [exec_rxAbort_eq] at h; cases h; left; split <;> rfl
    case lineRx | lineTx | read | rxTimeout => exact .inl (exec_otherPorts_cmdErr h (by simp))

/-- Settles O14: with an error recorded an illegal word keeps it, and of the events only the two clear it. -/
theorem commandErrorIsSticky : Obligations.CommandErrorIsSticky := by
  intro s t hs h hne
  rcases step_cases s with ⟨_, e⟩ | ⟨g, _, _, e⟩ | ⟨g, _, c, _, _, _, e⟩ | ⟨g, ev, i, hg, hp, hd, e⟩ <;>
    rw [e] at h
  case inr.inr.inr =>
    rcases exec_cmdErr_cases h with hkept | hnone | ⟨hi, hclear⟩
    · exact absurd (by simpa using hkept) hne
    · exact absurd (by simpa using hnone) hs
    · refine ⟨hclear, g, ev, hg, hp, ?_⟩
      rcases hi with rfl | rfl
      · exact .inl hd
      · exact .inr hd
  all_goals cases h; exact absurd (by simp [State.cmdError_eq, hs]) hne

/-! ### The events of one cycle (spec/60_exceptions.md R225) -/

theorem nextGrant_cycle {c c' : Cycle} {a : Agent} (later : List Turn) (h : c.next = some (a, c')) :
    nextGrant (.cycle c :: later) = some { agent := a, sameCycle := c', later := later } := by
  simp only [nextGrant, h]

@[simp] theorem thenLater_quiet (later : List Turn) : thenLater Cycle.quiet later = later := if_pos rfl

/-- The command port's turn takes its word if it is accepted, and leaves the rest of the cycle (R80, R225). -/
theorem afterTurn_command_cycle (s : State) (c : Cycle) (later : List Turn) (acc : Bool) :
    s.afterTurn { agent := .command, sameCycle := c, later := later } acc = s.withEnv { s.env with
      commands := if acc then s.env.commands.tail else s.env.commands
      schedule := thenLater c later } := by
  cases acc <;> rfl

/-- The line transmitter's turn leaves the rest of the cycle (R225). -/
theorem afterTurn_lineTx_cycle (s : State) (c : Cycle) (later : List Turn) (acc : Bool) :
    s.afterTurn { agent := .lineTx, sameCycle := c, later := later } acc =
      s.withEnv { s.env with schedule := thenLater c later } := by
  cases acc <;> rfl

/-- The turn of the timeout input leaves the rest of the cycle (R225). -/
theorem afterTurn_rxTimeout_cycle (s : State) (c : Cycle) (later : List Turn) (acc : Bool) :
    s.afterTurn { agent := .rxTimeout, sameCycle := c, later := later } acc =
      s.withEnv { s.env with schedule := thenLater c later } := by
  cases acc <;> rfl

/-- An accepted line byte is taken from the line and drops the timeout of its cycle (R170, R185). -/
theorem afterTurn_lineRx_accepted (s : State) (c : Cycle) (later : List Turn) :
    s.afterTurn { agent := .lineRx, sameCycle := c, later := later } true = s.withEnv { s.env with
      lineIn := s.env.lineIn.tail, schedule := thenLater { c with rxTimeout := false } later } := rfl

theorem enabled_lineRx_iff (b : Byte) (s : State) :
    enabled (.lineRx b) s = true ↔ s.rx.state ≠ .stopped := s.rx.receiving_iff

theorem presented_command {v : Env} {w : Word} {rest : List Word} (h : v.commands = w :: rest) :
    presented .command v = some (.command w) := by simp [presented, h]

theorem presented_lineRx {v : Env} {b : Byte} {rest : List Byte} (h : v.lineIn = b :: rest) :
    presented .lineRx v = some (.lineByte b) := by simp [presented, h]

/-- Settles O8: the order is that of `Cycle.next`; only an accepted line byte takes more than its own turn
from the cycle. -/
theorem sameCycleOrder : Obligations.SameCycleOrder := by
  intro s c later hs
  have grant {a : Agent} {c' : Cycle} (h : c.next = some (a, c')) :
      nextGrant s.env.schedule = some { agent := a, sameCycle := c', later := later } := by
    rw [hs, nextGrant_cycle later h]
  refine ⟨fun hr => ?reset, fun hr hc w rest hw => ?command, fun hr hc ht => ?lineTx,
    fun hr hc ht hl b rest hb => ?lineRx, fun hr hc ht hl hto => ?timeout⟩
  case reset =>
    have hg := grant (a := .reset) (c' := Cycle.quiet) (by simp [Cycle.next, hr])
    exact step_of_decoded hg rfl rfl
  case command =>
    have hg := grant (a := .command) (c' := { c with command := false }) (by simp [Cycle.next, hr, hc])
    have hp := presented_command hw
    refine ⟨fun i hd => ?_, fun e hd => ?_⟩
    · rw [step_of_decoded hg hp hd, afterTurn_command_cycle, hw]
      rfl
    · rw [step_of_illegal hg hp hd, afterTurn_command_cycle, hw, State.cmdError_eq]
      rfl
  case lineTx =>
    have hg := grant (a := .lineTx) (c' := { c with lineTx := false }) (by simp [Cycle.next, hr, hc, ht])
    rw [step_of_decoded hg rfl rfl, afterTurn_lineTx_cycle]
    rfl
  case lineRx =>
    have hg := grant (a := .lineRx) (c' := { c with lineRx := false })
      (by simp [Cycle.next, hr, hc, ht, hl])
    have hp := presented_lineRx hb
    refine ⟨fun hrx => ?_, fun hrx => step_of_not_enabled hg hp rfl
      (by simp [enabled, RxUnit.receiving, hrx])⟩
    have hlast : { c with lineRx := false, rxTimeout := false } = Cycle.quiet := by
      simp [Cycle.quiet, hr, hc, ht]
    rw [step_of_decoded hg hp rfl, (enabled_lineRx_iff b s).mpr hrx, afterTurn_lineRx_accepted, hb, hlast,
      thenLater_quiet]
    rfl
  case timeout =>
    have hg := grant (a := .rxTimeout) (c' := { c with rxTimeout := false })
      (by simp [Cycle.next, hr, hc, ht, hl, hto])
    have hlast : { c with rxTimeout := false } = Cycle.quiet := by simp [Cycle.quiet, hr, hc, ht, hl]
    rw [step_of_decoded hg rfl rfl, afterTurn_rxTimeout_cycle, hlast, thenLater_quiet]
    rfl

/-! ### The line receiver's turn (R170, R181) -/

/-- While a receive is in progress the line receiver's turn takes the first byte of the line (R170). -/
theorem step_lineRx_of_receiving {s : State} {b : Byte} {rest : List Byte} {later : List Turn}
    (hb : s.env.lineIn = b :: rest) (hs : s.env.schedule = .agent .lineRx :: later)
    (hr : s.rx.state ≠ .stopped) : step s =
      exec (.lineRx b) (s.withEnv { s.env with lineIn := rest, schedule := later }) := by
  have hg : nextGrant s.env.schedule = some ⟨.lineRx, Cycle.quiet, later⟩ := by rw [hs, nextGrant_agent]
  rw [step_of_decoded hg (presented_lineRx hb) rfl, (enabled_lineRx_iff b s).mpr hr,
    afterTurn_lineRx_accepted, hb]
  rfl

/-- In STOPPED the line receiver's turn passes (R181). -/
theorem step_lineRx_of_stopped {s : State} {later : List Turn}
    (hs : s.env.schedule = .agent .lineRx :: later) (hr : s.rx.state = .stopped) :
    step s = .next (s.withEnv { s.env with schedule := later }) := by
  have hg : nextGrant s.env.schedule = some ⟨.lineRx, Cycle.quiet, later⟩ := by rw [hs, nextGrant_agent]
  cases hb : s.env.lineIn with
  | nil => exact step_of_nothing_presented hg (by simp [presented, hb])
  | cons b rest =>
    exact step_of_not_enabled hg (presented_lineRx hb) rfl (by simp [enabled, RxUnit.receiving, hr])

/-- Settles O39: the receive unit takes the first byte of the line while receiving; in STOPPED the event is
not enabled. -/
theorem lineByteIsAcceptedOnlyWhileReceiving : Obligations.LineByteIsAcceptedOnlyWhileReceiving := by
  intro s b rest later hb hs
  refine ⟨fun hr => ?receiving, fun hr => ?stopped⟩
  case receiving =>
    have hstep := step_lineRx_of_receiving hb hs hr
    exact ⟨_, hstep, hstep.trans (exec_lineRx_of_receiving b hr), rfl⟩
  case stopped => exact ⟨by rw [exec_lineRx_eq, if_pos hr], step_lineRx_of_stopped hs hr⟩

/-- Settles O38: with and without a receive in progress. -/
theorem rxTimeoutResult : Obligations.RxTimeoutResult := by
  refine ⟨fun s hs => ?inProgress, fun s hs => ?stopped⟩
  case inProgress => rw [exec_rxTimeout_eq, if_neg hs]; rfl
  case stopped => rw [exec_rxTimeout_eq, if_pos hs]

end Sys2Proof.Machine

namespace Sys2Proof.Machine

/-! ### The checksum function (spec/40_checksum.md R100) -/

@[simp] theorem checksum_nil : checksum [] = 0#16 := rfl

theorem checksum_toNat (xs : List Byte) : (checksum xs).toNat = (xs.map BitVec.toNat).sum % 65536 := rfl

theorem checksum_append (xs ys : List Byte) : checksum (xs ++ ys) = checksum xs + checksum ys := by
  simp only [checksum, List.map_append, List.sum_append, BitVec.ofNat_add]

theorem checksum_cons (b : Byte) (xs : List Byte) : checksum (b :: xs) = zext16 b + checksum xs := by
  simp only [checksum, zext16, List.map_cons, List.sum_cons, BitVec.ofNat_add, BitVec.ofNat_toNat]

theorem checksum_replicate_zero (n : Nat) : checksum (List.replicate n 0#8) = 0#16 := by
  simp [checksum]

/-- Up to 257 bytes of at most 255 each stay below 65536. -/
theorem byteSum_lt_of_length_le {xs : List Byte} (h : xs.length ≤ 257) :
    (xs.map BitVec.toNat).sum < 65536 := by
  have hle : (xs.map BitVec.toNat).sum ≤ (xs.map BitVec.toNat).length • 255 := by
    refine List.sum_le_card_nsmul _ _ fun v hv => ?_
    obtain ⟨b, _, rfl⟩ := List.mem_map.mp hv
    have := b.isLt
    omega
  rw [List.length_map, smul_eq_mul] at hle
  omega

/-- Settles O20: the laws of a sum of byte values, and of its reduction modulo 65536. -/
theorem checksumLaws : Obligations.ChecksumLaws := by
  refine ⟨fun xs ys h => ?perm, fun xs ys => ?append, fun xs n => ?zeros, fun xs h => ?short, ?wraps⟩
  case perm => rw [checksum, checksum, (h.map _).sum_eq]
  case append => rw [checksum_append, BitVec.toNat_add]
  case zeros => rw [checksum_append, checksum_replicate_zero, BitVec.add_zero]
  case short => rw [checksum_toNat, Nat.mod_eq_of_lt (byteSum_lt_of_length_le h)]
  case wraps => rw [checksum, List.map_replicate, List.sum_replicate]; rfl

/-! ### The checksum unit on a list of bytes (R103, R104) -/

theorem execAll_cons {i : Instr} {s t : State} (is : List Instr) (h : exec i s = .next t) :
    execAll (i :: is) s = execAll is t := by
  simp only [execAll, h]

/-- CK_ADD of each byte adds their checksum to `ck_acc`, from clear match flags. -/
theorem execAll_ckAdd (xs : List Byte) (s : State) (acc : Half) :
    execAll (xs.map Instr.ckAdd) (s.withCk { acc := acc, matchLe := false, matchBe := false }) =
      .next (s.withCk { acc := acc + checksum xs, matchLe := false, matchBe := false }) := by
  induction xs generalizing acc with
  | nil => simp [execAll]
  | cons b xs ih =>
    rw [List.map_cons, execAll_cons _ (exec_ckAdd_eq b _), State.withCk_withCk, State.withCk_ck, ih,
      checksum_cons, BitVec.add_assoc]

/-- Settles O18: CK_CLEAR starts the sum at 0, to which CK_ADD adds byte by byte. -/
theorem ckSumLeavesTheChecksum : Obligations.CkSumLeavesTheChecksum := by
  intro s xs
  rw [ckSum, execAll_cons _ (exec_ckClear_eq s), execAll_ckAdd, BitVec.ofNat_eq_ofNat, BitVec.zero_add]
  rfl

/-- Every event but CK_VERIFY keeps the checksum unit or clears both match flags (R103, R104, R250). -/
theorem exec_ck_cases {i : Instr} {s t : State} (h : exec i s = .next t)
    (hi : ∀ g0 g1, i ≠ .ckVerify g0 g1) :
    t.ck = s.ck ∨ (t.ck.matchLe = false ∧ t.ck.matchBe = false) := by
  rcases exec_writes_at_most_one_unit h with
    ⟨_, rfl⟩ | ⟨_, rfl⟩ | ⟨_, _, _, rfl⟩ | ⟨_, _, rfl⟩ | ⟨hck, _⟩ | ⟨_, rfl⟩
  case inr.inr.inr.inr.inl =>
    cases i <;> simp only [isCkCommand, reduceCtorEq] at hck
    case ckVerify g0 g1 => exact absurd rfl (hi g0 g1)
    case ckClear | ckAdd => cases h; exact .inr ⟨rfl, rfl⟩
  case inr.inr.inr.inr.inr => exact .inr ⟨rfl, rfl⟩
  all_goals exact .inl rfl

/-- Settles O19: CK_VERIFY sets the flags by the present sum; no other event sets one or changes the sum
under one. -/
theorem ckFlagsReferToThePresentSum : Obligations.CkFlagsReferToThePresentSum := by
  refine fun f0 f1 => ⟨fun s t h => ?verify, fun i s t hi h hle hbe => ?other⟩
  case verify =>
    rw [exec_ckVerify_eq] at h
    cases h
    exact ⟨(matchesLe_iff s.ck.acc f0 f1).mp, (matchesBe_iff s.ck.acc f0 f1).mp⟩
  case other =>
    rcases exec_ck_cases h hi with hck | ⟨hle0, hbe0⟩
    · rw [hck]
      exact ⟨hle, hbe⟩
    · exact ⟨fun h1 => by simp [hle0] at h1, fun h1 => by simp [hbe0] at h1⟩

/-! ### One flipped bit (spec/40_checksum.md section 3) -/

/-- Flipping a clear bit `k` of a byte adds `2 ^ k`. -/
theorem xor_twoPow_toNat_of_clear {b : Byte} {k : Nat} (hk : k < 8) (hb : b.getLsbD k = false) :
    (b ^^^ BitVec.twoPow 8 k).toNat = b.toNat + 2 ^ k := by
  have hdisjoint : b &&& BitVec.twoPow 8 k = 0#8 := by simp [BitVec.and_twoPow, hb]
  have hxor : b ^^^ BitVec.twoPow 8 k = b + BitVec.twoPow 8 k := by
    rw [BitVec.add_eq_or_of_and_eq_zero _ _ hdisjoint]
    ext i hi
    have hbit : (b[i] && (BitVec.twoPow 8 k)[i]) = false := by
      simpa using congrArg (·[i]) hdisjoint
    revert hbit
    simp only [BitVec.getElem_xor, BitVec.getElem_or]
    cases b[i] <;> cases (BitVec.twoPow 8 k)[i] <;> simp
  rw [hxor, BitVec.toNat_add_of_and_eq_zero hdisjoint, BitVec.toNat_twoPow_of_lt hk]

/-- Flipping bit `k` of a byte adds or takes away `2 ^ k`. -/
theorem xor_twoPow_toNat (b : Byte) {k : Nat} (hk : k < 8) :
    (b ^^^ BitVec.twoPow 8 k).toNat = b.toNat + 2 ^ k ∨
    b.toNat = (b ^^^ BitVec.twoPow 8 k).toNat + 2 ^ k := by
  cases hb : b.getLsbD k with
  | false => exact .inl (xor_twoPow_toNat_of_clear hk hb)
  | true =>
    have hclear : (b ^^^ BitVec.twoPow 8 k).getLsbD k = false := by
      simp [hb, hk]
    have hback : b ^^^ BitVec.twoPow 8 k ^^^ BitVec.twoPow 8 k = b := by
      rw [BitVec.xor_assoc, BitVec.xor_self, BitVec.xor_zero]
    exact .inr (by rw [← xor_twoPow_toNat_of_clear hk hclear, hback])

/-- A bit flipped in one byte of the body moves the checksum by `2 ^ k`, up or down. -/
theorem checksum_flipBit {body : List Byte} {j k : Nat} (hj : j < body.length) (hk : k < 8) :
    (checksum (flipBit body j k)).toNat = ((checksum body).toNat + 2 ^ k) % 65536 ∨
    (checksum body).toNat = ((checksum (flipBit body j k)).toNat + 2 ^ k) % 65536 := by
  obtain ⟨pre, b, post, hbody, _, hflip⟩ :=
    List.exists_of_modify (fun b => b ^^^ BitVec.twoPow 8 k) hj
  rw [flipBit, hflip, hbody]
  simp only [checksum_toNat, List.map_append, List.map_cons, List.sum_append, List.sum_cons]
  rcases xor_twoPow_toNat b hk with h | h <;> rw [h]
  · left; omega
  · right; omega

/-- The two readings of a field differ by a multiple of 255, which is no `2 ^ k` modulo 65536; nor does a
reading differ so from itself. -/
theorem reading_ne_add_twoPow {a b k r r' : Nat} (ha : a < 256) (hb : b < 256) (hk : k < 8)
    (hr : r = a + 256 * b ∨ r = 256 * a + b) (hr' : r' = a + 256 * b ∨ r' = 256 * a + b) :
    r' ≠ (r + 2 ^ k) % 65536 := by
  interval_cases k <;> omega

/-- Settles O21: a field that matched before the flip reads `2 ^ k` away from the new checksum. -/
theorem bodyBitFlipIsNeverAccepted : Obligations.BodyBitFlipIsNeverAccepted := by
  intro body f0 f1 j k hj hk hmatch
  rw [matchesLe_iff, matchesBe_iff] at hmatch
  have hmissed : ¬ ((checksum (flipBit body j k)).toNat = f0.toNat + 256 * f1.toNat ∨
      (checksum (flipBit body j k)).toNat = 256 * f0.toNat + f1.toNat) := fun hmatch' =>
    (checksum_flipBit hj hk).elim (reading_ne_add_twoPow f0.isLt f1.isLt hk hmatch hmatch')
      (reading_ne_add_twoPow f0.isLt f1.isLt hk hmatch' hmatch)
  rw [← matchesLe_iff, ← matchesBe_iff] at hmissed
  simpa using hmissed

theorem lowByte_toNat (v : Half) : (lowByte v).toNat = v.toNat % 256 := by
  simp [lowByte]

theorem highByte_toNat (v : Half) : (highByte v).toNat = v.toNat / 256 := by
  have := v.isLt
  rw [highByte, BitVec.extractLsb'_toNat, Nat.shiftRight_eq_div_pow]
  omega

/-- Settles O22: read low byte first the changed field is another number; read high byte first it would need
equal bytes, of which only one has changed. -/
theorem fieldBitFlipIsNeverAccepted : Obligations.FieldBitFlipIsNeverAccepted := by
  intro body j k f0 f1 hj hk hflip
  have hlow := lowByte_toNat (checksum body)
  have hhigh := highByte_toNat (checksum body)
  have hpow := Nat.two_pow_pos k
  have := f1.isLt
  have hmissed : ¬ ((checksum body).toNat = f0.toNat + 256 * f1.toNat ∨
      (checksum body).toNat = 256 * f0.toNat + f1.toNat) := by
    match j, hj with
    | 0, _ =>
      obtain ⟨rfl, rfl⟩ : lowByte (checksum body) ^^^ BitVec.twoPow 8 k = f0 ∧
          highByte (checksum body) = f1 := by simpa [flipBit, checksumField] using hflip
      have := xor_twoPow_toNat (lowByte (checksum body)) hk
      omega
    | 1, _ =>
      obtain ⟨rfl, rfl⟩ : lowByte (checksum body) = f0 ∧
          highByte (checksum body) ^^^ BitVec.twoPow 8 k = f1 := by
        simpa [flipBit, checksumField] using hflip
      have := xor_twoPow_toNat (highByte (checksum body)) hk
      omega
  rw [← matchesLe_iff, ← matchesBe_iff] at hmissed
  simpa using hmissed

end Sys2Proof.Machine

namespace Sys2Proof.Machine

/-! ### Un-stuffing, byte by byte (spec/42_receive.md R160) -/

@[simp] theorem unstuff_nil : unstuff [] = some [] := by simp [unstuff]

/-- A lone trailing escape byte is an error (R160). -/
@[simp] theorem unstuff_lone_escape : unstuff [escapeByte] = none := by simp [unstuff]

/-- An escape byte takes the code behind it (R160). -/
theorem unstuff_escape (c : Byte) (rest : List Byte) : unstuff (escapeByte :: c :: rest) =
    (esc c).bind fun v => (unstuff rest).map (v :: ·) := by
  rw [unstuff, if_pos rfl]
  cases esc c <;> rfl

/-- Every other byte stands for itself (R160). -/
theorem unstuff_ordinary {b : Byte} (hb : b ≠ escapeByte) (rest : List Byte) :
    unstuff (b :: rest) = (unstuff rest).map (b :: ·) := by
  cases rest <;> simp [unstuff, hb]

/-- The recursion of `unstuff`: a list of bytes is empty, a lone escape byte, an escape byte with the byte
behind it, or begins with another byte. -/
theorem unstuff_induction {motive : List Byte → Prop} (nil : motive []) (lone : motive [escapeByte])
    (escape : ∀ c rest, motive rest → motive (escapeByte :: c :: rest))
    (ordinary : ∀ b rest, b ≠ escapeByte → motive rest → motive (b :: rest)) :
    ∀ ys : List Byte, motive ys
  | [] => nil
  | [b] => if hb : b = escapeByte then hb ▸ lone else ordinary b [] hb nil
  | b :: c :: rest =>
    if hb : b = escapeByte then hb ▸ escape c rest (unstuff_induction nil lone escape ordinary rest)
    else ordinary b (c :: rest) hb (unstuff_induction nil lone escape ordinary (c :: rest))

/-! ### Stuffing (spec/41_transmit.md section 1) -/

/-- A byte goes on the line behind an escape byte as its code, or as itself if it is not special (R71). -/
theorem stuff1_cases (b : Byte) :
    (∃ c, esc c = some b ∧ stuff1 b = [escapeByte, c] ∧ isSpecial b = true) ∨
    (isSpecial b = false ∧ stuff1 b = [b]) := by
  by_cases h1 : b = startDelimiter
  · exact .inl ⟨0x05#8, by simp [esc, h1], by simp [stuff1, h1], by simp [isSpecial, h1]⟩
  by_cases h2 : b = escapeByte
  · exact .inl ⟨0x0A#8, by simp [esc, h2], by subst h2; rfl, by simp [isSpecial, h2]⟩
  by_cases h3 : b = endDelimiter
  · exact .inl ⟨0x0E#8, by simp [esc, h3], by subst h3; rfl, by simp [isSpecial, h3]⟩
  · exact .inr ⟨by simp [isSpecial, h1, h2, h3], stuff1_of_ordinary h1 h2 h3⟩

theorem isSpecial_eq_false_iff (b : Byte) :
    isSpecial b = false ↔ b ≠ startDelimiter ∧ b ≠ escapeByte ∧ b ≠ endDelimiter := by
  simp [isSpecial, and_assoc]

@[simp] theorem stuff_nil : stuff [] = [] := rfl

theorem stuff_append (xs ys : List Byte) : stuff (xs ++ ys) = stuff xs ++ stuff ys := List.flatMap_append

/-- Un-stuffing gives back a stuffed byte, whatever comes behind it. -/
theorem unstuff_stuff1_append (b : Byte) (ys : List Byte) :
    unstuff (stuff1 b ++ ys) = (unstuff ys).map (b :: ·) := by
  rcases stuff1_cases b with ⟨c, hc, e, _⟩ | ⟨hb, e⟩ <;> rw [e]
  · rw [List.cons_append, List.cons_append, List.nil_append, unstuff_escape, hc]
    rfl
  · exact unstuff_ordinary ((isSpecial_eq_false_iff b).mp hb).2.1 ys

theorem unstuff_stuff (xs : List Byte) : unstuff (stuff xs) = some xs := by
  induction xs with
  | nil => simp
  | cons b xs ih => rw [stuff_cons, unstuff_stuff1_append, ih]; rfl

/-- Settles O26, by induction on the sequence. -/
theorem unstuffUndoesStuff : Obligations.UnstuffUndoesStuff := unstuff_stuff

/-- An error behind an escape byte is an error of the whole sequence, whatever comes before it: the escape
byte is taken as one, or it is the code of another escape byte, which it cannot be. -/
theorem unstuff_append_eq_none (pre : List Byte) {ys : List Byte} (h : unstuff (escapeByte :: ys) = none) :
    unstuff (pre ++ escapeByte :: ys) = none := by
  have hescape : esc escapeByte = none := rfl
  induction pre using unstuff_induction with
  | nil => exact h
  | lone => rw [List.cons_append, List.nil_append, unstuff_escape, hescape]; rfl
  | escape c rest ih =>
    rw [List.cons_append, List.cons_append, unstuff_escape, ih]
    cases esc c <;> rfl
  | ordinary b rest hb ih => rw [List.cons_append, unstuff_ordinary hb, ih]; rfl

/-- Settles O27: an escape byte with no code behind it is an error, and stays one behind other bytes. -/
theorem invalidEscapeIsNeverPassed : Obligations.InvalidEscapeIsNeverPassed := by
  refine ⟨fun pre post c h1 h2 h3 => unstuff_append_eq_none pre ?_,
    fun pre => unstuff_append_eq_none pre unstuff_lone_escape⟩
  rw [unstuff_escape, (esc_none_iff c).mpr ⟨h1, h2, h3⟩]
  rfl

/-- Stuffing adds a byte for each special byte. -/
theorem stuff_length (xs : List Byte) : (stuff xs).length = xs.length + (xs.filter isSpecial).length := by
  induction xs with
  | nil => rfl
  | cons b xs ih =>
    rw [stuff_cons, List.length_append, stuff1_length, ih, List.filter_cons]
    split <;> simp only [List.length_cons] <;> omega

/-- A stuffed byte is no delimiter: it is an escape byte, an escape code, or not special. -/
theorem mem_stuff1 {b x : Byte} (h : x ∈ stuff1 b) : x ≠ startDelimiter ∧ x ≠ endDelimiter := by
  rcases stuff1_cases b with ⟨c, hc, e, _⟩ | ⟨hb, e⟩ <;> rw [e] at h
  · rcases List.mem_cons.mp h with rfl | h
    · decide
    · obtain rfl := List.mem_singleton.mp h
      rcases esc_some hc with ⟨rfl, _⟩ | ⟨rfl, _⟩ | ⟨rfl, _⟩ <;> decide
  · obtain rfl := List.mem_singleton.mp h
    obtain ⟨hstart, _, hend⟩ := (isSpecial_eq_false_iff x).mp hb
    exact ⟨hstart, hend⟩

theorem delimiters_not_mem_stuff (xs : List Byte) : startDelimiter ∉ stuff xs ∧ endDelimiter ∉ stuff xs := by
  constructor <;> intro h <;> obtain ⟨b, _, hb⟩ := List.mem_flatMap.mp h
  · exact (mem_stuff1 hb).1 rfl
  · exact (mem_stuff1 hb).2 rfl

/-- Behind every escape byte of a stuffed sequence stands an escape code. -/
theorem stuff_escape_followed_by_code {xs pre post : List Byte} (h : stuff xs = pre ++ escapeByte :: post) :
    ∃ c rest, post = c :: rest ∧ (esc c).isSome := by
  induction xs generalizing pre with
  | nil => simp at h
  | cons b xs ih =>
    rw [stuff_cons] at h
    rcases stuff1_cases b with ⟨c, hc, e, _⟩ | ⟨hb, e⟩ <;> rw [e] at h
    · match pre, h with
      | [], h =>
        obtain rfl : c :: stuff xs = post := (List.cons.inj h).2
        exact ⟨c, stuff xs, rfl, by rw [hc]; rfl⟩
      | [_], h =>
        obtain rfl : c = escapeByte := (List.cons.inj (List.cons.inj h).2).1
        cases hc
      | _ :: _ :: pre, h => exact ih (List.cons.inj (List.cons.inj h).2).2
    · match pre, h with
      | [], h => exact absurd (List.cons.inj h).1 ((isSpecial_eq_false_iff b).mp hb).2.1
      | _ :: pre, h => exact ih (List.cons.inj h).2

/-- Un-stuffing is a left inverse. -/
theorem stuff_injective : Function.Injective stuff := fun xs ys h => by
  rw [← Option.some_inj, ← unstuff_stuff, h, unstuff_stuff]

/-- Settles O25: length, no delimiters, escapes in pairs, one to one, and concatenation. -/
theorem stuffingLaws : Obligations.StuffingLaws := by
  refine ⟨stuff_length, delimiters_not_mem_stuff, fun xs pre post h => ?_, fun _ _ h => stuff_injective h,
    stuff_append⟩
  obtain ⟨c, rest, hpost, hc⟩ := stuff_escape_followed_by_code h
  obtain ⟨v, hv⟩ := Option.isSome_iff_exists.mp hc
  exact ⟨c, rest, hpost, (esc_some hv).imp And.left (Or.imp And.left And.left)⟩

end Sys2Proof.Machine

namespace Sys2Proof.Machine

/-! ### The transmit commands with and without room (spec/41_transmit.md R133 to R136, R141) -/

/-- The error that is recorded is the first one (R205). -/
theorem cmdError_eq_firstError (s : State) (c : CmdErr) :
    s.cmdError c = { s with cmdErr := firstError s.cmdErr c } := s.cmdError_eq c

theorem transmit_of_room {s : State} {xs : List Byte} (u : TxUnit)
    (h : s.tx.queue.length + xs.length ≤ s.params.txqDepth) : s.transmit xs u = s.withTx (u.emit xs) := by
  simp [State.transmit, State.hasRoom, h]

theorem transmit_of_no_room {s : State} {xs : List Byte} (u : TxUnit)
    (h : s.params.txqDepth < s.tx.queue.length + xs.length) : s.transmit xs u = s := by
  simp [State.transmit, State.hasRoom, h]

/-- Settles O28: each state of the transmit unit, with and without room; the reserved bits are those of the
TX_START row. -/
theorem txStartResult : Obligations.TxStartResult := by
  refine ⟨fun s hs => ?sequence, fun s hs hroom => ?room, fun s hs hfull => ?noRoom, by decide,
    fun _ => rejectedWith_rsvdBits .txStart⟩
  case sequence => rw [exec_txStart_of_body hs, cmdError_eq_firstError]
  case room => rw [exec_txStart_of_idle hs, transmit_of_room _ hroom]; rfl
  case noRoom => rw [exec_txStart_of_idle hs, transmit_of_no_room _ hfull]

/-- Settles O29: each state of the transmit unit, with and without room; the word and its reserved bits are
those of the TX_DATA row. -/
theorem txDataResult : Obligations.TxDataResult := by
  refine ⟨fun s b hs => ?sequence, fun s b hs hroom => ?room, fun s b hs hfull => ?noRoom, fun b => ?word,
    fun _ => rejectedWith_rsvdBits .txData⟩
  case sequence => rw [exec_txData_of_idle b hs, cmdError_eq_firstError]
  case room =>
    rw [exec_txData_of_body b hs, transmit_of_room _ hroom]
    exact ⟨_, rfl, hs, by simp [BitVec.toNat_add], rfl, rfl⟩
  case noRoom => rw [exec_txData_of_body b hs, transmit_of_no_room _ hfull]
  case word => simpa [commandWord, Op.row] using decode_commandWord_txData b

/-- The two bytes of a sum are those that spell its value, low byte first (R14). -/
theorem lowByte_highByte_of_toNat {v : Half} {lo hi : Byte} (h : v.toNat = lo.toNat + 256 * hi.toNat) :
    lowByte v = lo ∧ highByte v = hi := by
  have := lo.isLt
  constructor
  · apply BitVec.eq_of_toNat_eq; rw [lowByte_toNat]; omega
  · apply BitVec.eq_of_toNat_eq; rw [highByte_toNat]; omega

theorem endBytes_length (sum : Half) : (endBytes sum).length =
    (stuff1 (lowByte sum)).length + (stuff1 (highByte sum)).length + 1 := by
  simp [endBytes, Nat.add_assoc]

/-- Settles O30: each state of the transmit unit, with and without room; the reserved bits are those of the
TX_END row. -/
theorem txEndResult : Obligations.TxEndResult := by
  refine ⟨fun s hs => ?sequence, fun s lo hi hs hsum => ?body, by decide,
    fun _ => rejectedWith_rsvdBits .txEnd⟩
  case sequence => rw [exec_txEnd_of_idle hs, cmdError_eq_firstError]
  case body =>
    obtain ⟨rfl, rfl⟩ := lowByte_highByte_of_toNat hsum
    rw [exec_txEnd_of_body hs]
    refine ⟨fun hroom => ?_, fun hfull => ?_⟩
    · rw [transmit_of_room _ (by rw [endBytes_length]; omega)]
      rfl
    · rw [transmit_of_no_room _ (by rw [endBytes_length]; omega)]

/-! ### What an event emits (R136, R140, R141) -/

/-- Only the TX commands emit (R136). -/
theorem out_of_not_txCommand {i : Instr} (s : State) (hi : isTxCommand i = false) : out i s = [] := by
  cases i <;> simp only [isTxCommand, reduceCtorEq] at hi <;> rfl

/-- A TX command emits at most five bytes, which every legal queue holds (R7, R136). -/
theorem out_length_le (i : Instr) (s : State) : (out i s).length ≤ 5 := by
  cases hi : isTxCommand i with
  | false => simp [out_of_not_txCommand s hi]
  | true =>
    cases i <;> simp only [isTxCommand, reduceCtorEq] at hi
    case txStart => cases hs : s.tx.state <;> simp [out, hs]
    case txData b =>
      have := (stuff1_length_bounds b).2
      cases hs : s.tx.state <;> simp only [out, hs, List.length_nil] <;> omega
    case txEnd =>
      have := (endBytes_length_bounds s.tx.sum).2
      cases hs : s.tx.state <;> simp only [out, hs, List.length_nil] <;> omega

/-- A TX command is enabled if it emits nothing or its bytes fit (R80, R141). -/
theorem enabled_txCommand_iff {i : Instr} (hi : isTxCommand i = true) (s : State) :
    enabled i s = true ↔ out i s = [] ∨ s.tx.queue.length + (out i s).length ≤ s.params.txqDepth := by
  have h : enabled i s = ((out i s).isEmpty || s.hasRoom (out i s)) := by
    cases i <;> simp only [isTxCommand, reduceCtorEq] at hi <;> rfl
  simp [h, State.hasRoom]

/-- An accepted TX command appends what it emits to the queue (R133 to R135). -/
theorem exec_txCommand_of_enabled {i : Instr} {s t : State} (hi : isTxCommand i = true)
    (he : enabled i s = true) (h : exec i s = .next t) :
    t.env = s.env ∧ t.tx.queue = s.tx.queue ++ out i s := by
  rcases exec_txCommand_emits hi s with ⟨hout, e⟩ | ⟨hout, u, hu, e⟩ <;> rw [e] at h <;> cases h
  · simp [hout]
  · have hroom := ((enabled_txCommand_iff hi s).mp he).resolve_left hout
    rw [transmit_of_room u hroom]
    simp [hu]

/-- The bytes on the line, followed by those that still wait in the queue. -/
def State.lineBytes (s : State) : List Byte := s.env.lineOut ++ s.tx.queue

/-- What an observer of the transmit unit and its line sees. -/
structure TxView where
  state : TxState
  sum : Half
  line : List Byte

def State.txView (s : State) : TxView := { state := s.tx.state, sum := s.tx.sum, line := s.lineBytes }

/-- No event but the TX commands and RESET changes the view; LINE_TX moves a byte within it (R67, R140). -/
theorem exec_txView_of_not_txCommand {i : Instr} {s t : State} (hi : isTxCommand i = false)
    (hreset : i ≠ .reset) (h : exec i s = .next t) : t.txView = s.txView := by
  cases i <;> simp only [isTxCommand, reduceCtorEq] at hi
  case lineTx =>
    rcases exec_lineTx_cases h with ⟨_, rfl⟩ | ⟨b, rest, hq, rfl⟩
    · rfl
    · simp [State.txView, State.lineBytes, hq]
  case rxStart | rxAbort | lineRx | rxTimeout =>
    rcases exec_touchesRx_cases rfl h with
      ⟨_, rfl⟩ | ⟨_, rfl⟩ | ⟨_, ⟨_, rfl⟩ | ⟨_, rfl⟩ | ⟨_, _, rfl⟩⟩ <;> rfl
  case reset => exact absurd rfl hreset
  case nop | ckClear | ckAdd | ckVerify | errClear | read => cases h; rfl

/-- The line bytes grow by what an accepted event emits (R136, R140). -/
theorem exec_lineBytes {i : Instr} {s t : State} (hreset : i ≠ .reset) (h : exec i s = .next t) :
    t.lineBytes = s.lineBytes ++ (if enabled i s then out i s else []) := by
  cases hi : isTxCommand i with
  | false =>
    rw [out_of_not_txCommand s hi, ite_self, List.append_nil]
    exact congrArg TxView.line (exec_txView_of_not_txCommand hi hreset h)
  | true =>
    cases he : enabled i s with
    | false =>
      rw [exec_of_not_enabled i s he] at h
      cases h
      simp
    | true =>
      obtain ⟨henv, hqueue⟩ := exec_txCommand_of_enabled hi he h
      simp [State.lineBytes, henv, hqueue]

/-- Settles O33: the counts are the lengths of the emitted bytes, and the line bytes grow by just them. -/
theorem emittedBytesKeepTheirOrder : Obligations.EmittedBytesKeepTheirOrder := by
  refine fun i s => ⟨out_length_le i s, out_of_not_txCommand s, ?start, ?data, ?fin,
    fun t hreset h => exec_lineBytes hreset h⟩
  case start =>
    rintro rfl hs
    simp [out, hs]
  case data =>
    rintro b rfl hs
    simpa only [out, hs] using stuff1_length b
  case fin =>
    rintro rfl hs
    simpa only [out, hs] using (endBytes_length_bounds s.tx.sum).1

/-! ### The frame that a sequence of transmit commands makes (R70, R133 to R135) -/

/-- What a transmit command makes of the view when it is accepted (R133 to R135, R204). -/
def TxView.advance (v : TxView) (i : Instr) : TxView :=
  match i, v.state with
  | .txStart, .idle => { state := .body, sum := 0, line := v.line ++ [startDelimiter] }
  | .txData b, .body => { v with sum := v.sum + zext16 b, line := v.line ++ stuff1 b }
  | .txEnd, .body => { v with state := .idle, line := v.line ++ endBytes v.sum }
  | _, _ => v

theorem TxView.advance_of_not_txCommand (v : TxView) {i : Instr} (hi : isTxCommand i = false) :
    v.advance i = v := by
  cases i <;> simp only [isTxCommand, reduceCtorEq] at hi <;> rfl

@[simp] theorem State.cmdError_lineBytes (s : State) (c : CmdErr) :
    (s.cmdError c).lineBytes = s.lineBytes := by
  simp [State.lineBytes]

@[simp] theorem State.cmdError_txView (s : State) (c : CmdErr) : (s.cmdError c).txView = s.txView := by
  simp [State.txView]

/-- An accepted TX command that emits bytes puts them behind the line bytes so far. -/
theorem transmit_txView_of_enabled {i : Instr} {s : State} {xs : List Byte} {state : TxState}
    {sum : Half} (hi : isTxCommand i = true) (he : enabled i s = true) (hout : out i s = xs) (hne : xs ≠ []) :
    (s.transmit xs { state := state, sum := sum, queue := s.tx.queue }).txView =
      { state := state, sum := sum, line := s.lineBytes ++ xs } := by
  subst hout
  rw [transmit_of_room _ (((enabled_txCommand_iff hi s).mp he).resolve_left hne)]
  simp [State.txView, State.lineBytes]

/-- An accepted TX command advances the view. -/
theorem exec_txView_of_txCommand {i : Instr} {s t : State} (hi : isTxCommand i = true)
    (he : enabled i s = true) (h : exec i s = .next t) : t.txView = s.txView.advance i := by
  cases i <;> simp only [isTxCommand, reduceCtorEq] at hi <;> cases hs : s.tx.state
  case txStart.idle =>
    rw [exec_txStart_of_idle hs] at h
    cases h
    have hout : out .txStart s = [startDelimiter] := by simp only [out, hs]
    rw [transmit_txView_of_enabled rfl he hout (List.cons_ne_nil _ _)]
    simp [TxView.advance, State.txView, hs]
  case txData.body b =>
    rw [exec_txData_of_body b hs] at h
    cases h
    have hout : out (.txData b) s = stuff1 b := by simp only [out, hs]
    rw [transmit_txView_of_enabled rfl he hout (stuff1_ne_nil b)]
    simp [TxView.advance, State.txView, hs]
  case txEnd.body =>
    rw [exec_txEnd_of_body hs] at h
    cases h
    have hout : out .txEnd s = endBytes s.tx.sum := by simp only [out, hs]
    rw [transmit_txView_of_enabled rfl he hout (endBytes_ne_nil _)]
    simp [TxView.advance, State.txView, hs]
  case txStart.body | txData.idle | txEnd.idle =>
    simp only [exec, execTxStart, execTxData, execTxEnd, hs] at h
    cases h
    simp [TxView.advance, State.txView, hs]

/-- Every event but RESET, its TX commands accepted, advances the view. -/
theorem exec_txView {i : Instr} {s t : State} (hreset : i ≠ .reset)
    (he : isTxCommand i = true → enabled i s = true) (h : exec i s = .next t) :
    t.txView = s.txView.advance i := by
  cases hi : isTxCommand i with
  | false => rw [exec_txView_of_not_txCommand hi hreset h, TxView.advance_of_not_txCommand _ hi]
  | true => exact exec_txView_of_txCommand hi (he hi) h

/-- The events one after another, their TX commands accepted in turn, advance the view. -/
theorem execAll_txView (is : List Instr) (s : State) (hreset : .reset ∉ is)
    (he : ∀ a b i t, is = a ++ i :: b → isTxCommand i = true → execAll a s = .next t →
      enabled i t = true) :
    ∃ t, execAll is s = .next t ∧ t.txView = is.foldl TxView.advance s.txView := by
  induction is generalizing s with
  | nil => exact ⟨s, rfl, rfl⟩
  | cons i is ih =>
    obtain ⟨u, hu⟩ := exec_next i s
    obtain ⟨hi, his⟩ : .reset ≠ i ∧ .reset ∉ is := by simpa using hreset
    have hview := exec_txView hi.symm (fun htx => he [] is i s rfl htx rfl) hu
    rw [execAll_cons is hu, List.foldl_cons, ← hview]
    exact ih u his fun a b j t hsplit htx ha =>
      he (i :: a) b j t (by rw [hsplit]; rfl) htx (by rw [execAll_cons a hu, ha])

/-- Only the TX commands of a sequence advance the view. -/
theorem foldl_advance_filter (is : List Instr) (v : TxView) :
    (is.filter isTxCommand).foldl TxView.advance v = is.foldl TxView.advance v := by
  induction is generalizing v with
  | nil => rfl
  | cons i is ih =>
    cases hi : isTxCommand i with
    | false =>
      rw [List.filter_cons_of_neg (by simp [hi]), List.foldl_cons, TxView.advance_of_not_txCommand v hi, ih]
    | true => rw [List.filter_cons_of_pos hi, List.foldl_cons, List.foldl_cons, ih]

/-- The body bytes of an open frame: stuffed on the line, and added to the sum (R134). -/
theorem foldl_advance_txData (body : List Byte) (sum : Half) (line : List Byte) :
    (body.map Instr.txData).foldl TxView.advance { state := .body, sum := sum, line := line } =
      { state := .body, sum := sum + checksum body, line := line ++ stuff body } := by
  induction body generalizing sum line with
  | nil => simp
  | cons b body ih =>
    rw [List.map_cons, List.foldl_cons, checksum_cons, stuff_cons, ← BitVec.add_assoc, ← List.append_assoc]
    exact ih _ _

/-- TX_END's bytes are the stuffed checksum field and the end delimiter (R70, R135). -/
theorem endBytes_checksum (body : List Byte) :
    endBytes (checksum body) = stuff (checksumField body) ++ [endDelimiter] := by
  simp [endBytes, checksumField, stuff_cons]

/-- TX_FRAME of a body puts its frame on the line (R70, R89). -/
theorem foldl_advance_txFrame (body : List Byte) {v : TxView} (hv : v.state = .idle) :
    (txFrame body).foldl TxView.advance v =
      { state := .idle, sum := checksum body, line := v.line ++ frame body } := by
  have hstart : v.advance .txStart =
      { state := .body, sum := 0, line := v.line ++ [startDelimiter] } := by
    simp [TxView.advance, hv]
  rw [txFrame, List.foldl_cons, hstart, List.foldl_append, foldl_advance_txData]
  simp [TxView.advance, endBytes_checksum, frame, stuff_append]

/-- Settles O35: the events advance the view of the transmit unit by their TX commands alone, which make the
frame. -/
theorem transmittedBytesAreTheFrame : Obligations.TransmittedBytesAreTheFrame := by
  intro s body is hs htx hreset he
  obtain ⟨t, ht, hview⟩ := execAll_txView is s hreset he
  rw [← foldl_advance_filter, htx, foldl_advance_txFrame body hs] at hview
  obtain ⟨hstate, hsum, hline⟩ := TxView.mk.inj hview
  exact ⟨t, ht, hstate, hsum, hline⟩

end Sys2Proof.Machine

namespace Sys2Proof.Machine

/-! ### The turn of the command port (R80, R141) -/

/-- The command port's turn runs its first word, which leaves the port if it is accepted (R80). -/
theorem step_command {s : State} {w : Word} {rest : List Word} {later : List Turn} {i : Instr}
    (hw : s.env.commands = w :: rest) (hs : s.env.schedule = .agent .command :: later)
    (hd : decode (.command w) = .ok i) :
    step s = exec i (s.withEnv { s.env with
      commands := if enabled i s then rest else w :: rest, schedule := later }) := by
  have hg : nextGrant s.env.schedule = some ⟨.command, Cycle.quiet, later⟩ := by rw [hs, nextGrant_agent]
  rw [step_of_decoded hg (presented_command hw) hd, afterTurn_command_cycle, thenLater_quiet, hw]
  rfl

/-- Settles O31: a TX word is accepted when its bytes fit, and a queue of five bytes holds those of each. -/
theorem txWordWaitsForRoom : Obligations.TxWordWaitsForRoom := by
  intro s w rest later i hw hs hd hi hq
  have hstep := step_command hw hs hd
  have henabled := enabled_txCommand_iff hi s
  refine ⟨fun hroom => ?room, fun hfull => ?noRoom, fun hwf hempty => ?legal⟩
  case room =>
    have he : enabled i s = true := henabled.mpr (.inr hroom)
    rw [he, if_pos rfl] at hstep
    obtain ⟨t, ht⟩ := exec_next i (s.withEnv { s.env with commands := rest, schedule := later })
    obtain ⟨henv, hqueue⟩ := exec_txCommand_of_enabled hi (by rwa [enabled_withEnv]) ht
    exact ⟨t, hstep.trans ht, by rw [henv]; rfl, by rw [henv]; rfl, by simpa using hqueue⟩
  case noRoom =>
    have he : enabled i s = false := by
      rw [Bool.eq_false_iff, ne_eq, henabled]
      rintro (hout | hroom)
      · rw [hout, List.length_nil] at hfull; omega
      · omega
    rw [he, if_neg (by simp), ← hw] at hstep
    rw [hstep]
    exact exec_of_not_enabled i _ (by rwa [enabled_withEnv])
  case legal =>
    have := out_length_le i s
    obtain ⟨-, ⟨hdepth, -⟩, -⟩ := (params_wf_iff s.params).mp hwf
    rw [hempty, List.length_nil]
    omega

/-! ### The line transmitter's turns (R140) -/

theorem exec_lineTx_of_cons {s : State} {b : Byte} {rest : List Byte} (h : s.tx.queue = b :: rest) :
    exec .lineTx s = .next ((s.withTx { s.tx with queue := rest }).withEnv
      { s.env with lineOut := s.env.lineOut ++ [b] }) := by
  simp only [exec, execLineTx, h]

theorem exec_lineTx_of_empty {s : State} (h : s.tx.queue = []) : exec .lineTx s = .next s := by
  simp only [exec, execLineTx, h]

/-- Settles O34: LINE_TX on both forms of the queue, and TX_BODY as the code of the transmit state. -/
theorem lineTxTakesTheHead : Obligations.LineTxTakesTheHead := by
  refine ⟨fun s b rest h => exec_lineTx_of_cons h, fun s h => exec_lineTx_of_empty h, fun s => ?_⟩
  obtain ⟨txBody, -⟩ := statusWord_layout s
  rw [memRead_status, txBody, transmitComplete]
  cases s.tx.state <;> simp [TxState.code]

theorem step_lineTx {s : State} {later : List Turn} (hs : s.env.schedule = .agent .lineTx :: later) :
    step s = exec .lineTx (s.withEnv { s.env with schedule := later }) := by
  have hg : nextGrant s.env.schedule = some ⟨.lineTx, Cycle.quiet, later⟩ := by rw [hs, nextGrant_agent]
  rw [step_of_decoded hg rfl rfl, afterTurn_lineTx_cycle, thenLater_quiet]

/-- A turn of the line transmitter for each byte of the queue puts them on the line in order (R140). -/
theorem run_lineTx_drains {s : State} {q : List Byte} {later : List Turn} (hq : s.tx.queue = q)
    (hs : s.env.schedule = List.replicate q.length (.agent .lineTx) ++ later) :
    run q.length s = .next ((s.withTx { s.tx with queue := [] }).withEnv
      { s.env with lineOut := s.env.lineOut ++ q, schedule := later }) := by
  induction q generalizing s with
  | nil =>
    rw [List.length_nil, List.replicate_zero, List.nil_append] at hs
    rw [List.length_nil, List.append_nil, run, ← hq, ← hs]
    rfl
  | cons b q ih =>
    rw [List.length_cons, List.replicate_succ, List.cons_append] at hs
    have hstep := (step_lineTx hs).trans (exec_lineTx_of_cons hq)
    rw [List.length_cons, run_succ_of_next _ _ _ hstep, ih rfl rfl]
    simp [State.withTx, State.withEnv]

/-! ### A waiting word (spec/70_reset_and_hazards.md section 3) -/

/-- With legal parameters and an empty queue every command is enabled (R80, R141). -/
theorem enabled_command_of_drained {w : Word} {i : Instr} (hd : decode (.command w) = .ok i) {s : State}
    (hwf : s.params.wf = true) (hq : s.tx.queue = []) : enabled i s = true := by
  cases hi : isTxCommand i with
  | true =>
    have := out_length_le i s
    obtain ⟨-, ⟨hdepth, -⟩, -⟩ := (params_wf_iff s.params).mp hwf
    exact (enabled_txCommand_iff hi s).mpr (.inr (by rw [hq, List.length_nil]; omega))
  | false =>
    obtain ⟨op, _, rfl⟩ := (decode_eq_ok_iff w i).mp hd
    cases op <;> simp only [Op.instr, isTxCommand, reduceCtorEq] at hi <;> rfl

/-- A command leaves what surrounds the block. -/
theorem exec_command_env {w : Word} {i : Instr} (hd : decode (.command w) = .ok i) {s t : State}
    (h : exec i s = .next t) : t.env = s.env := by
  cases hi : isTxCommand i with
  | true => rcases exec_txCommand_cases hi h with ⟨_, rfl⟩ | ⟨_, rfl⟩ <;> rfl
  | false =>
    obtain ⟨op, _, rfl⟩ := (decode_eq_ok_iff w i).mp hd
    cases op <;> simp only [Op.instr, isTxCommand, reduceCtorEq] at hi h
    case rxAbort => rw [exec_rxAbort_eq] at h; cases h; split <;> rfl
    case nop | rxStart | ckClear | ckAdd | ckVerify | errClear => cases h; rfl

/-- A run of `m + k` steps goes on from where its first `m` steps end. -/
theorem run_add_of_next {m : Nat} {s t : State} (k : Nat) (h : run m s = .next t) :
    run (m + k) s = run k t := by
  induction m generalizing s with
  | zero => cases h; rw [Nat.zero_add]
  | succ m ih =>
    obtain ⟨u, hu⟩ := noEventStopsTheBlock s
    rw [run_succ_of_next _ _ _ hu] at h
    rw [Nat.add_right_comm, run_succ_of_next _ _ _ hu, ih h]

/-- Settles O32: the line drains the queue, and then the port's turn finds its word enabled. -/
theorem waitingWordIsAcceptedOnceTheLineDrains : Obligations.WaitingWordIsAcceptedOnceTheLineDrains := by
  intro s w rest later i hwf hw hd hs
  have hdrain := run_lineTx_drains rfl hs
  generalize hu : (s.withTx _).withEnv _ = u at hdrain
  have hwu : u.env.commands = w :: rest := by rw [← hu]; exact hw
  have hsu : u.env.schedule = .agent .command :: later := by rw [← hu]; rfl
  have he : enabled i u = true :=
    enabled_command_of_drained hd (by rw [← hu]; exact hwf) (by rw [← hu]; rfl)
  have hstep := step_command hwu hsu hd
  rw [he, if_pos rfl] at hstep
  obtain ⟨t, ht⟩ := exec_next i (u.withEnv { u.env with commands := rest, schedule := later })
  have henv := exec_command_env hd ht
  refine ⟨u, t, hdrain, hu.symm, ?_, by rw [henv]; rfl, by rw [henv]; rfl⟩
  rw [run_add_of_next 1 hdrain, run_succ_of_next 0 _ _ (hstep.trans ht)]
  rfl

end Sys2Proof.Machine

namespace Sys2Proof.Machine

/-! ### A receive unit that is offered one byte after another (R170, R181) -/

/-- The receive unit after it has been offered the bytes, and those of them that it has not accepted. -/
def RxUnit.feed (rx : RxUnit) (p : Config.Params) (bs : List Byte) : RxUnit × List Byte :=
  match bs with
  | [] => (rx, [])
  | b :: rest => if rx.state = .stopped then (rx, b :: rest) else (rx.takeByte p b).feed p rest

theorem RxUnit.feed_of_stopped {rx : RxUnit} (p : Config.Params) (bs : List Byte)
    (h : rx.state = .stopped) : rx.feed p bs = (rx, bs) := by
  cases bs with
  | nil => rfl
  | cons b rest => rw [feed, if_pos h]

theorem RxUnit.feed_cons {rx : RxUnit} (p : Config.Params) (b : Byte) (rest : List Byte)
    (h : rx.state ≠ .stopped) : rx.feed p (b :: rest) = (rx.takeByte p b).feed p rest := by
  rw [feed, if_neg h]

/-- In STOPPED the turns of the line receiver pass (R181). -/
theorem run_lineRx_of_stopped {s : State} {n : Nat} {later : List Turn} (hr : s.rx.state = .stopped)
    (hs : s.env.schedule = List.replicate n (.agent .lineRx) ++ later) :
    run n s = .next (s.withEnv { s.env with schedule := later }) := by
  induction n generalizing s with
  | zero =>
    rw [List.replicate_zero, List.nil_append] at hs
    rw [← hs]
    rfl
  | succ n ih =>
    rw [List.replicate_succ, List.cons_append] at hs
    rw [run_succ_of_next _ _ _ (step_lineRx_of_stopped hs hr)]
    exact ih hr rfl

/-- A turn of the line receiver for each byte offers the receive unit these bytes. -/
theorem run_lineRx_feeds {s : State} {xs rest : List Byte} {later : List Turn}
    (hb : s.env.lineIn = xs ++ rest)
    (hs : s.env.schedule = List.replicate xs.length (.agent .lineRx) ++ later) :
    run xs.length s = .next ((s.withRx (s.rx.feed s.params xs).1).withEnv
      { s.env with lineIn := (s.rx.feed s.params xs).2 ++ rest, schedule := later }) := by
  induction xs generalizing s with
  | nil =>
    rw [List.length_nil, List.replicate_zero, List.nil_append] at hs
    rw [List.nil_append] at hb
    rw [RxUnit.feed, List.nil_append, ← hs, ← hb]
    rfl
  | cons b xs ih =>
    by_cases hr : s.rx.state = .stopped
    · rw [run_lineRx_of_stopped hr hs, RxUnit.feed_of_stopped _ _ hr, ← hb]
      rfl
    · rw [List.length_cons, List.replicate_succ, List.cons_append] at hs
      rw [List.cons_append] at hb
      have hstep := (step_lineRx_of_receiving hb hs hr).trans (exec_lineRx_of_receiving b hr)
      rw [List.length_cons, run_succ_of_next _ _ _ hstep, ih rfl rfl, RxUnit.feed_cons _ _ _ hr]
      rfl

/-! ### The bytes of a frame (R171 to R177) -/

/-- A byte of a frame, appended with room for it. -/
def RxUnit.store (rx : RxUnit) (v : Byte) : RxUnit :=
  { rx with state := .inPacket, buf := rx.buf.write rx.len v, len := rx.len + 1 }

@[simp] theorem RxUnit.store_state (rx : RxUnit) (v : Byte) : (rx.store v).state = .inPacket := rfl
@[simp] theorem RxUnit.store_len (rx : RxUnit) (v : Byte) : (rx.store v).len = rx.len + 1 := rfl
@[simp] theorem RxUnit.store_received (rx : RxUnit) (v : Byte) :
    (rx.store v).received = rx.received ++ [v] := received_write rx v

/-- Noise before a frame is discarded (R171). -/
theorem RxUnit.feed_noise {rx : RxUnit} (p : Config.Params) {junk : List Byte} (xs : List Byte)
    (h : rx.state = .idle) (hj : startDelimiter ∉ junk) : rx.feed p (junk ++ xs) = rx.feed p xs := by
  induction junk with
  | nil => rfl
  | cons b junk ih =>
    obtain ⟨hb, hj⟩ := List.ne_and_not_mem_of_not_mem_cons hj
    rw [List.cons_append, feed_cons _ _ _ (by simp [h]), takeByte_noise p h (Ne.symm hb), ih hj]

/-- The start delimiter opens a frame with no bytes yet (R171). -/
theorem RxUnit.feed_startDelimiter {rx : RxUnit} (p : Config.Params) (xs : List Byte)
    (h : rx.state = .idle) :
    rx.feed p (startDelimiter :: xs) = RxUnit.feed { rx with state := .inPacket, len := 0 } p xs := by
  rw [feed_cons _ _ _ (by simp [h]), takeByte_startDelimiter p h]

/-- The end delimiter completes the frame, and what comes behind it is not accepted (R173, R181). -/
theorem RxUnit.feed_endDelimiter {rx : RxUnit} (p : Config.Params) (xs : List Byte)
    (h : rx.state = .inPacket) : rx.feed p (endDelimiter :: xs) = (rx.complete p, xs) := by
  rw [feed_cons _ _ _ (by simp [h]), takeByte_endDelimiter p h, feed_of_stopped p xs (complete_state ..)]

/-- A byte that is neither an escape byte nor an end delimiter is stored as it is (R174). -/
theorem RxUnit.feed_data {rx : RxUnit} {p : Config.Params} {b : Byte} (xs : List Byte)
    (h : rx.state = .inPacket) (hesc : b ≠ escapeByte) (hend : b ≠ endDelimiter)
    (hroom : p.rxCap ≠ some rx.len) : rx.feed p (b :: xs) = (rx.store b).feed p xs := by
  rw [feed_cons _ _ _ (by simp [h]), takeByte_data p h hesc hend, append_of_room b hroom, store, ← h]

/-- An escape byte and a code store the byte that the code stands for (R172, R175). -/
theorem RxUnit.feed_escapeCode {rx : RxUnit} {p : Config.Params} {c v : Byte} (xs : List Byte)
    (h : rx.state = .inPacket) (hc : esc c = some v) (hroom : p.rxCap ≠ some rx.len) :
    rx.feed p (escapeByte :: c :: xs) = (rx.store v).feed p xs := by
  rw [feed_cons _ _ _ (by simp [h]), takeByte_escapeByte p h, feed_cons _ _ _ (by simp),
    takeByte_escapeCode_of_room (rx := { rx with state := .escaped }) rfl hc hroom]
  rfl

/-- An escape byte with another byte behind it ends the receive (R172, R176). -/
theorem RxUnit.feed_invalidEscape {rx : RxUnit} (p : Config.Params) {c : Byte} (xs : List Byte)
    (h : rx.state = .inPacket) (hc : esc c = none) : rx.feed p (escapeByte :: c :: xs) =
      (RxUnit.finish { rx with state := .escaped } .invalidEscape, xs) := by
  rw [feed_cons _ _ _ (by simp [h]), takeByte_escapeByte p h, feed_cons _ _ _ (by simp),
    takeByte_invalidEscape p rfl hc, feed_of_stopped p xs rfl]

/-! ### The streaming receiver and `unstuff` (spec/42_receive.md section 4) -/

/-- The receive has ended with a frame of these de-stuffed bytes (R180). -/
structure RxUnit.FrameOf (p : Config.Params) (zs : List Byte) (rx : RxUnit) : Prop where
  stopped : rx.state = .stopped
  result : rx.result = .frame
  received : rx.received = zs
  check : rx.check = validate p.minLen zs

theorem unstuff_escape_eq_some {c : Byte} {ys zs : List Byte}
    (h : unstuff (escapeByte :: c :: ys) = some zs) :
    ∃ v zs', esc c = some v ∧ unstuff ys = some zs' ∧ zs = v :: zs' := by
  rw [unstuff_escape] at h
  obtain ⟨v, hv, h⟩ := Option.bind_eq_some_iff.mp h
  obtain ⟨zs', hzs', rfl⟩ := Option.map_eq_some_iff.mp h
  exact ⟨v, zs', hv, hzs', rfl⟩

theorem unstuff_ordinary_eq_some {b : Byte} {ys zs : List Byte} (hb : b ≠ escapeByte)
    (h : unstuff (b :: ys) = some zs) : ∃ zs', unstuff ys = some zs' ∧ zs = b :: zs' := by
  rw [unstuff_ordinary hb] at h
  obtain ⟨zs', hzs', rfl⟩ := Option.map_eq_some_iff.mp h
  exact ⟨zs', hzs', rfl⟩

/-- There is room for the next byte of a region that fits. -/
theorem room_of_fits {p : Config.Params} {len k : Nat} (h : ∀ n, p.rxCap = some n → len + (k + 1) ≤ n) :
    p.rxCap ≠ some len ∧ ∀ n, p.rxCap = some n → len + 1 + k ≤ n :=
  ⟨fun hn => by have := h _ hn; omega, fun n hn => by have := h n hn; omega⟩

/-- A stuffed region that un-stuffs and fits, up to its end delimiter, is received as what it un-stuffs to. -/
theorem RxUnit.feed_region {rx : RxUnit} {p : Config.Params} {ys zs : List Byte} (rest : List Byte)
    (h : rx.state = .inPacket) (hend : endDelimiter ∉ ys) (hz : unstuff ys = some zs)
    (hfits : ∀ n, p.rxCap = some n → rx.len + zs.length ≤ n) :
    ∃ rx', rx.feed p (ys ++ endDelimiter :: rest) = (rx', rest) ∧
      RxUnit.FrameOf p (rx.received ++ zs) rx' := by
  induction ys using unstuff_induction generalizing rx zs with
  | nil =>
    obtain rfl : [] = zs := by simpa using hz
    refine ⟨rx.complete p, feed_endDelimiter p rest h, ?_⟩
    rw [List.append_nil]
    exact ⟨rfl, rfl, rfl, rfl⟩
  | lone => simp at hz
  | escape c ys ih =>
    obtain ⟨v, zs, hv, hz', rfl⟩ := unstuff_escape_eq_some hz
    obtain ⟨hroom, hfits⟩ := room_of_fits hfits
    have hend : endDelimiter ∉ ys := fun hmem => hend (by simp [hmem])
    obtain ⟨rx', hfeed, hframe⟩ := ih (store_state rx v) hend hz' (by simpa using hfits)
    refine ⟨rx', (feed_escapeCode _ h hv hroom).trans hfeed, ?_⟩
    simpa using hframe
  | ordinary b ys hb ih =>
    obtain ⟨zs, hz', rfl⟩ := unstuff_ordinary_eq_some hb hz
    obtain ⟨hroom, hfits⟩ := room_of_fits hfits
    obtain ⟨hne, hend⟩ := List.ne_and_not_mem_of_not_mem_cons hend
    obtain ⟨rx', hfeed, hframe⟩ := ih (store_state rx b) hend hz' (by simpa using hfits)
    refine ⟨rx', (feed_data _ h hb (Ne.symm hne) hroom).trans hfeed, ?_⟩
    simpa using hframe

/-- A stuffed region that does not un-stuff ends the receive with INVALID_ESCAPE, inside the region or by its
end delimiter, under RX_CAP = infinity. -/
theorem RxUnit.feed_region_error {rx : RxUnit} {p : Config.Params} {ys : List Byte} (rest : List Byte)
    (h : rx.state = .inPacket) (hend : endDelimiter ∉ ys) (hz : unstuff ys = none)
    (hcap : p.rxCap = none) :
    ∃ rx' offered left, rx.feed p (ys ++ endDelimiter :: rest) = (rx', offered) ∧
      rx'.state = .stopped ∧ rx'.result = .invalidEscape ∧ left <:+ ys ∧
      (offered = left ++ endDelimiter :: rest ∨ offered = rest) := by
  induction ys using unstuff_induction generalizing rx with
  | nil => simp at hz
  | lone => exact ⟨_, rest, [], feed_invalidEscape p rest h rfl, rfl, rfl, List.nil_suffix, .inr rfl⟩
  | escape c ys ih =>
    cases hc : esc c with
    | none =>
      exact ⟨_, _, ys, feed_invalidEscape p _ h hc, rfl, rfl,
        (List.suffix_cons c ys).trans (List.suffix_cons _ _), .inl rfl⟩
    | some v =>
      have hz : unstuff ys = none := by simpa [unstuff_escape, hc] using hz
      have hend : endDelimiter ∉ ys := fun hmem => hend (by simp [hmem])
      obtain ⟨rx', offered, left, hfeed, hs, hr, hleft, hoffered⟩ := ih (store_state rx v) hend hz
      exact ⟨rx', offered, left, (feed_escapeCode _ h hc (by simp [hcap])).trans hfeed, hs, hr,
        hleft.trans ((List.suffix_cons c ys).trans (List.suffix_cons _ _)), hoffered⟩
  | ordinary b ys hb ih =>
    have hz : unstuff ys = none := by simpa [unstuff_ordinary hb] using hz
    obtain ⟨hne, hend⟩ := List.ne_and_not_mem_of_not_mem_cons hend
    obtain ⟨rx', offered, left, hfeed, hs, hr, hleft, hoffered⟩ := ih (store_state rx b) hend hz
    exact ⟨rx', offered, left, (feed_data _ h hb (Ne.symm hne) (by simp [hcap])).trans hfeed, hs, hr,
      hleft.trans (List.suffix_cons b ys), hoffered⟩

/-- A frame that begins finds no bytes received yet (R171). -/
theorem received_of_restart (rx : RxUnit) (st : RxState) :
    RxUnit.received { rx with state := st, len := 0 } = [] := rfl

/-- Settles O43: noise is discarded, the start delimiter opens the frame, and the region is received as
`unstuff` reads it. -/
theorem receivedStreamIsUnstuffed : Obligations.ReceivedStreamIsUnstuffed := by
  intro s junk ys rest later hidle hjunk hend hline hs
  have hrun := run_lineRx_feeds (s := s) (rest := []) (List.append_nil _).symm hs
  have hfeed : s.rx.feed s.params s.env.lineIn =
      RxUnit.feed { s.rx with state := .inPacket, len := 0 } s.params (ys ++ endDelimiter :: rest) := by
    rw [hline, RxUnit.feed_noise _ _ hidle hjunk]
    exact RxUnit.feed_startDelimiter _ _ hidle
  rw [hfeed] at hrun
  refine ⟨fun zs hz hfits => ?frame, fun hz hcap => ?error⟩
  case frame =>
    obtain ⟨rx', hregion, hframe⟩ := RxUnit.feed_region
      (rx := { s.rx with state := .inPacket, len := 0 }) rest rfl hend hz (by simpa using hfits)
    rw [received_of_restart, List.nil_append] at hframe
    rw [hregion, List.append_nil] at hrun
    exact ⟨_, hrun, hframe.stopped, hframe.result, hframe.received, hframe.check, rfl⟩
  case error =>
    obtain ⟨rx', offered, left, hregion, hstop, hres, hleft, hoffered⟩ := RxUnit.feed_region_error
      (rx := { s.rx with state := .inPacket, len := 0 }) rest rfl hend hz hcap
    rw [hregion, List.append_nil] at hrun
    exact ⟨_, left, hrun, hstop, hres, hleft, hoffered⟩

/-! ### The frame of a body, received (R70, R110) -/

/-- The checksum field read low byte first is the checksum (R14, R74). -/
theorem matchesLe_checksumField (sum : Half) : matchesLe sum (lowByte sum) (highByte sum) = true := by
  rw [matchesLe_iff, lowByte_toNat, highByte_toNat]
  omega

/-- The validator on a body and its own checksum field (R110). -/
theorem validate_append_checksumField (minLen : Nat) (body : List Byte) :
    (validate minLen (body ++ checksumField body)).sum = checksum body ∧
    (validate minLen (body ++ checksumField body)).matchLe = true ∧
    ((validate minLen (body ++ checksumField body)).valid = true ↔ minLen ≤ body.length + 2) := by
  rw [checksumField, validate_append_field]
  have hmatch := matchesLe_checksumField (checksum body)
  refine ⟨rfl, hmatch, ?_⟩
  simp [validateSplit, hmatch]

/-- Settles O44: the stuffed region of a frame has no end delimiter and un-stuffs to the body and its field,
which matches. -/
theorem receivedFrameIsTheBody : Obligations.ReceivedFrameIsTheBody := by
  intro s body rest later hidle hline hs hfits
  have hrun := run_lineRx_feeds hline hs
  rw [frame, RxUnit.feed_startDelimiter _ _ hidle, ← frame] at hrun
  obtain ⟨rx', hregion, hframe⟩ := RxUnit.feed_region
    (rx := { s.rx with state := .inPacket, len := 0 }) (p := s.params) [] rfl
    (delimiters_not_mem_stuff _).2 (unstuff_stuff (body ++ checksumField body))
    (by simpa [checksumField] using hfits)
  rw [received_of_restart, List.nil_append] at hframe
  rw [hregion, List.nil_append] at hrun
  obtain ⟨hsum, hmatch, hvalid⟩ := validate_append_checksumField s.params.minLen body
  rw [← hframe.check] at hsum hmatch hvalid
  exact ⟨_, hrun, hframe.stopped, hframe.result, hframe.received, hsum, hmatch, hvalid, rfl, rfl⟩

end Sys2Proof.Machine

namespace Sys2Proof.Machine

/-! ### The reserved addresses (spec/20_memory.md R51, R55) -/

/-- From 0x1000 up the read space shows RX_DATA (R51). -/
theorem memRead_eq_rxDataWord (s : State) {a : Half} (h : 0x1000 ≤ a.toNat) :
    memRead s a = rxDataWord s ((a.toNat - 0x1000) / 4) := by
  rw [memRead_eq]
  unfold wordAt
  iterate 7 rw [if_neg (by omega)]
  have hk : (4 * (a.toNat / 4) - 0x1000) / 4 = (a.toNat - 0x1000) / 4 := by omega
  rw [hk]

/-- The gap between the registers and RX_DATA reads 0 (R51). -/
theorem memRead_of_reserved (s : State) {a : Half} (h : 0x0018 ≤ a.toNat) (h' : a.toNat ≤ 0x0FFF) :
    memRead s a = 0#32 := by
  rw [memRead_eq]
  unfold wordAt
  iterate 6 rw [if_neg (by omega)]
  exact if_pos (by omega)

/-- A word of which every lane lies at RX_CAP or above reads 0 (R59). -/
theorem rxDataWord_beyondCap {s : State} {n k : Nat} (hn : s.params.rxCap = some n) (hk : n ≤ 4 * k) :
    rxDataWord s k = 0#32 := by
  have beyond (i : Nat) (hi : n ≤ i) : withinCap s.params i = false := by
    simpa [withinCap, hn] using hi
  rw [rxDataWord, rxLane_beyondCap _ (beyond _ hk), rxLane_beyondCap _ (beyond _ (by omega)),
    rxLane_beyondCap _ (beyond _ (by omega)), rxLane_beyondCap _ (beyond _ (by omega))]
  rfl

/-- Settles O52: the gap below RX_DATA, and the words past RX_CAP, of which every lane is 0. -/
theorem reservedAddressesReadZero : Obligations.ReservedAddressesReadZero := by
  refine fun s a => ⟨fun h h' => memRead_of_reserved s h h', fun n hn h => ?_⟩
  rw [memRead_eq_rxDataWord s (by omega)]
  exact rxDataWord_beyondCap hn (by omega)

/-! ### Stale bytes (spec/20_memory.md section 1) -/

/-- The state with other cells in `rx_buf` and other surroundings. -/
def State.withCells (s : State) (buf : Memory) (v : Env) : State :=
  { s with rx := { s.rx with buf := buf }, env := v }

/-- The registers show neither `rx_buf` nor the draws (R51). -/
theorem memRead_withCells_of_register (s : State) (buf : Memory) (v : Env) {a : Half}
    (h : a.toNat < 0x1000) : memRead (s.withCells buf v) a = memRead s a := by
  rw [memRead_eq, memRead_eq]
  unfold wordAt
  split_ifs
  case neg => omega
  all_goals rfl

/-- A lane below `rx_len` shows its cell, whatever the draw (R59). -/
theorem rxLane_withCells_of_lt {s : State} {buf : Memory} {i : Nat} (v : Env) (draw draw' : Nat)
    (hlen : i < s.rx.len) (hcell : buf.read? i = s.rx.buf.read? i) :
    rxLane (s.withCells buf v) draw i = rxLane s draw' i := by
  have hbyte : buf.byteAt i = s.rx.buf.byteAt i := by rw [Memory.byteAt, Memory.byteAt, hcell]
  simp only [rxLane, State.withCells, hlen, if_true, hbyte]

/-- A lane from `rx_len` up shows its draw, whatever the cell (R59). -/
theorem rxLane_withCells_of_ge {s : State} (buf : Memory) (v : Env) (draw : Nat) {i : Nat}
    (hlen : ¬ i < s.rx.len) : rxLane (s.withCells buf v) draw i = rxLane s draw i := by
  simp only [rxLane, State.withCells, hlen, if_false]

/-- Settles O53: a register does not show the cells, a lane below `rx_len` shows a cell on which the two
agree, and a lane from there up its draw. -/
theorem staleBytesAreNotSeen : Obligations.StaleBytesAreNotSeen := by
  intro s t a ht hcells
  obtain ⟨buf, v, rfl⟩ : ∃ buf v, t = s.withCells buf v := ⟨_, _, ht⟩
  refine ⟨memRead_withCells_of_register s buf v, fun h j hj hlen => ?lane, fun hdraws => ?sameDraws⟩
  case lane =>
    rw [memRead_eq_rxDataWord _ h, memRead_eq_rxDataWord _ h, rxDataWord_lane _ _ hj, rxDataWord_lane _ _ hj]
    exact rxLane_withCells_of_lt v _ _ hlen (hcells _ hlen)
  case sameDraws =>
    rcases Nat.lt_or_ge a.toNat 0x1000 with h | h
    · exact memRead_withCells_of_register s buf v h
    · have lane (draw i : Nat) : rxLane (s.withCells buf v) draw i = rxLane s draw i := by
        by_cases hlen : i < s.rx.len
        · exact rxLane_withCells_of_lt v draw draw hlen (hcells i hlen)
        · exact rxLane_withCells_of_ge buf v draw hlen
      rw [memRead_eq_rxDataWord _ h, memRead_eq_rxDataWord _ h, rxDataWord, rxDataWord, hdraws]
      simp only [lane]

/-! ### RESET (spec/70_reset_and_hazards.md R250) -/

theorem exec_reset_eq (s : State) : exec .reset s = .next s.resetBlock := rfl

/-- Settles O54: the reset values; none of the registers shows `rx_buf`, so each reads as in `State.reset`. -/
theorem resetResult : Obligations.ResetResult := by
  intro s
  have status : statusWord s.resetBlock = statusWord State.reset := rfl
  have rxLen : rxLenWord s.resetBlock = rxLenWord State.reset := rfl
  have rxCheck : rxCheckWord s.resetBlock = rxCheckWord State.reset := rfl
  have txSum : txSumWord s.resetBlock = txSumWord State.reset := rfl
  have ckAcc : ckAccWord s.resetBlock = ckAccWord State.reset := rfl
  refine ⟨s.resetBlock, exec_reset_eq s, rfl, ?_, ?_, ?_, ?_, ?_, rfl⟩
  · rw [memRead_status, status]; rfl
  · rw [memRead_rxLen, rxLen]; rfl
  · rw [memRead_rxCheck, rxCheck]; rfl
  · rw [memRead_txSum, txSum]; rfl
  · rw [memRead_ckAcc, ckAcc]; rfl

end Sys2Proof.Machine
